-- ==== Sys2Proof/Word.lean ====
section
/-! DEFINITION. The word of the block: a command word, a limb, a word of either channel and a system register are
all 32 bits wide (R8). -/

namespace Sys2Proof

/-- A 32-bit word. Bit 0 is the least significant bit (R8, R13). -/
abbrev Word := BitVec 32

end Sys2Proof
end

