-- ==== Sys2Proof/Syntax.lean ====
section
/-! DEFINITION. The commands of the block as data: one constructor for each row of the opcode table (R84), operands in
the assembler's order, destinations first (R87). -/

namespace Sys2Proof

/-- The index of a big-integer register `x0` to `x15` (R7, R21). -/
abbrev Reg := Fin 16

/-- The four system registers that exist (R28). -/
inductive SysReg where
  | id
  | status
  | errcmd
  | cap
  deriving DecidableEq, Repr

/-- The payload of a command: the sign bit of its header and its limbs, least significant first (R54, R56). -/
structure Payload where
  sign : Bool
  limbs : List Word
  deriving DecidableEq, Repr

/-- The payload of a command that has none: every command but one whose opcode byte is 0x10 (R52). -/
def Payload.empty : Payload := ⟨false, []⟩

/-- A command as it stands in the command channel: its word, whatever that decodes to, and its payload (R52). -/
structure Command where
  word : Word
  payload : Payload
  deriving DecidableEq, Repr

/-- A command (R84, R87). `LDI` carries its payload, since a command is its word together with its payload (R52). -/
inductive Instr where
  /-- `NOP` (R170). -/
  | nop
  /-- `ACK` (R171). -/
  | ack
  /-- `RDSR sr` (R172). -/
  | rdsr (sr : SysReg)
  /-- `LDI rd` with its payload (R110). -/
  | ldi (rd : Reg) (p : Payload)
  /-- `LI rd, imm16` (R111). -/
  | li (rd : Reg) (imm : BitVec 16)
  /-- `RD rs1` (R112). -/
  | readout (rs1 : Reg)
  /-- `MUL rd, rs1, rs2` (R120): product of `x` and `y`. -/
  | mul (rd rs1 rs2 : Reg)
  /-- `DIV rd, rd2, rs1, rs2` (R130): quotient and remainder of dividend and divisor. -/
  | div (rd rd2 rs1 rs2 : Reg)
  /-- `EGCD rd, rd2, rd3, rs1, rs2` (R140): gcd, `x` and `y` of `a` and `b`; `rd3` stands in the field `rx`. -/
  | egcd (rd rd2 rd3 rs1 rs2 : Reg)
  /-- `MODINV rd, rs1, rs2` (R141): inverse of `a` modulo `m`. -/
  | modinv (rd rs1 rs2 : Reg)
  /-- `MODEXP rd, rs1, rs2, rs3` (R150): base, exponent, modulus. -/
  | modexp (rd rs1 rs2 rs3 : Reg)
  /-- `MRDEC rd, rd2, rs1` (R160): `u` and `r` of the candidate `n`. -/
  | mrdec (rd rd2 rs1 : Reg)
  /-- `MRW rd, rs1, rs2, rs3, rs4` (R161): base, `r`, `u`, `n`; `rs4` stands in the field `rx`. -/
  | mrw (rd rs1 rs2 rs3 rs4 : Reg)
  deriving DecidableEq, Repr

/-- The pseudo-instruction `CLR rd` (R91). -/
def Instr.clr (rd : Reg) : Instr := .li rd 0

/-- The pseudo-instruction `SQR rd, rs` (R91). -/
def Instr.sqr (rd rs : Reg) : Instr := .mul rd rs rs

end Sys2Proof
end

