-- ==== Sys2Proof/WellFormed.lean ====
section
/-! DEFINITION. Which terms of `Instr` are commands of the block, and which registers each reads and writes (R25). -/

namespace Sys2Proof

/-- The registers a command reads (R25). -/
def Instr.sources : Instr → List Reg
  | .nop => []
  | .ack => []
  | .rdsr _ => []
  | .ldi _ _ => []
  | .li _ _ => []
  | .readout rs1 => [rs1]
  | .mul _ rs1 rs2 => [rs1, rs2]
  | .div _ _ rs1 rs2 => [rs1, rs2]
  | .egcd _ _ _ rs1 rs2 => [rs1, rs2]
  | .modinv _ rs1 rs2 => [rs1, rs2]
  | .modexp _ rs1 rs2 rs3 => [rs1, rs2, rs3]
  | .mrdec _ _ rs1 => [rs1]
  | .mrw _ rs1 rs2 rs3 rs4 => [rs1, rs2, rs3, rs4]

/-- The registers a command writes when it completes (R25). -/
def Instr.dests : Instr → List Reg
  | .nop => []
  | .ack => []
  | .rdsr _ => []
  | .ldi rd _ => [rd]
  | .li rd _ => [rd]
  | .readout _ => []
  | .mul rd _ _ => [rd]
  | .div rd rd2 _ _ => [rd, rd2]
  | .egcd rd rd2 rd3 _ _ => [rd, rd2, rd3]
  | .modinv rd _ _ => [rd]
  | .modexp rd _ _ _ => [rd]
  | .mrdec rd rd2 _ => [rd, rd2]
  | .mrw rd _ _ _ _ => [rd]

/-- A term is a command of the block: its destination fields are pairwise different (R85, R88 case 4), and a payload has
as many limbs as its 31-bit limb count can say (R54). -/
def Instr.wellFormed : Instr → Bool
  | .nop => true
  | .ack => true
  | .rdsr _ => true
  | .ldi _ p => decide (p.limbs.length < 2 ^ 31)
  | .li _ _ => true
  | .readout _ => true
  | .mul _ _ _ => true
  | .div rd rd2 _ _ => decide (rd ≠ rd2)
  | .egcd rd rd2 rd3 _ _ => decide (rd ≠ rd2) && decide (rd ≠ rd3) && decide (rd2 ≠ rd3)
  | .modinv _ _ _ => true
  | .modexp _ _ _ _ => true
  | .mrdec rd rd2 _ => decide (rd ≠ rd2)
  | .mrw _ _ _ _ _ => true

end Sys2Proof
end

