-- ==== Sys2Proof/Decode.lean ====
section
/-! DEFINITION. From the words of the command channel to commands, and back: the cut of the word stream (R52), the
decoder (R86) and the encoder (R81, R85), with the opcode table of R85 as data. -/

namespace Sys2Proof

/-! ### Fields of a word (R13) -/

/-- `w[lo + width - 1 : lo]` read as an unsigned number (R13). -/
def field (w : Word) (lo width : Nat) : Nat := w.toNat / 2 ^ lo % 2 ^ width

/-- The 4-bit register field of `w` whose lowest bit is `lo` (R81, R83). -/
def regField (w : Word) (lo : Nat) : Reg := Fin.ofNat 16 (w.toNat / 2 ^ lo)

/-- The opcode byte, bits 31:24 (R81). -/
def opcodeByte (w : Word) : Nat := field w 24 8

/-! ### The header of a payload (R54) -/

/-- The sign bit of a header, bit 31. -/
def headerSign (h : Word) : Bool := decide (field h 31 1 = 1)

/-- The limb count of a header, bits 30:0. -/
def headerCount (h : Word) : Nat := field h 0 31

/-- The header of a sign and a limb count below 2^31. -/
def headerWord (sign : Bool) (count : Nat) : Word :=
  BitVec.ofNat 32 ((if sign then 2 ^ 31 else 0) + count)

/-! ### The cut of the word stream into commands (R52) -/

/-- What stands at the head of the command channel. -/
inductive Cut where
  /-- No word at all: the engine is idle. -/
  | idle
  /-- A command has begun and not all its words have arrived. -/
  | incomplete
  /-- A whole command: its word, its payload (the empty one for a command of one word), and the words after it. -/
  | ready (w : Word) (p : Payload) (rest : List Word)
  deriving DecidableEq, Repr

/-- The cut (R52). A word whose opcode byte is 0x10 owns a header and as many limbs as the header says; every other word
is a whole command. Nothing else decides it: not the other fields, not the state. -/
def cut : List Word → Cut
  | [] => .idle
  | w :: ws =>
    if opcodeByte w = 0x10 then
      match ws with
      | [] => .incomplete
      | h :: ls =>
        if ls.length < headerCount h then .incomplete
        else .ready w ⟨headerSign h, ls.take (headerCount h)⟩ (ls.drop (headerCount h))
    else .ready w .empty ws

/-! ### Decoding (R86, R88) -/

/-- The four reasons for which a word decodes to `Illegal` (R88). -/
inductive Illegal where
  /-- An opcode byte that R84 does not assign. -/
  | reservedOpcode
  /-- A bit that must be zero is set. -/
  | mustBeZero
  /-- `RDSR` with an index above 3. -/
  | reservedSysReg
  /-- Two equal destination fields in `DIV`, `EGCD` or `MRDEC`. -/
  | equalDestinations
  deriving DecidableEq, Repr

/-- The system register an index names (R28). -/
def sysRegOf : Nat → Option SysReg
  | 0 => some .id
  | 1 => some .status
  | 2 => some .errcmd
  | 3 => some .cap
  | _ => none

/-- The further constraint of a row of R85: the destination fields of `DIV`, `EGCD` and `MRDEC` are pairwise different. -/
def distinctDests : Instr → Bool
  | .nop => true
  | .ack => true
  | .rdsr _ => true
  | .ldi _ _ => true
  | .li _ _ => true
  | .readout _ => true
  | .mul _ _ _ => true
  | .div rd rd2 _ _ => decide (rd ≠ rd2)
  | .egcd rd rd2 rd3 _ _ => decide (rd ≠ rd2) && decide (rd ≠ rd3) && decide (rd2 ≠ rd3)
  | .modinv _ _ _ => true
  | .modexp _ _ _ _ => true
  | .mrdec rd rd2 _ => decide (rd ≠ rd2)
  | .mrw _ _ _ _ _ => true

/-- A word whose must-be-zero bits are `zero`, decoded as `i`: refused if one of them is set, or if the further
constraint fails. -/
def accept (zero : Bool) (i : Instr) : Except Illegal Instr :=
  if zero then (if distinctDests i then .ok i else .error .equalDestinations) else .error .mustBeZero

/-- The decoding of a word with the opcode byte of `RDSR`: bits 23:4 must be zero and the index at most 3 (R85, R88). -/
def decodeRdsr (w : Word) : Except Illegal Instr :=
  match sysRegOf (field w 0 4) with
  | some sr => accept (field w 4 20 = 0) (.rdsr sr)
  | none => .error (if field w 4 20 = 0 then .reservedSysReg else .mustBeZero)

/-- The decoder (R86), total on every word and payload. The payload matters to `LDI` alone. -/
def decode (w : Word) (p : Payload) : Except Illegal Instr :=
  let rd := regField w 20
  let rd2 := regField w 16
  let rs1 := regField w 12
  let rs2 := regField w 8
  let rs3 := regField w 4
  let rx := regField w 0
  if opcodeByte w = 0x00 then accept (field w 0 24 = 0) .nop
  else if opcodeByte w = 0x01 then accept (field w 0 24 = 0) .ack
  else if opcodeByte w = 0x02 then decodeRdsr w
  else if opcodeByte w = 0x10 then accept (field w 0 20 = 0) (.ldi rd p)
  else if opcodeByte w = 0x11 then accept (field w 16 4 = 0) (.li rd (BitVec.ofNat 16 (field w 0 16)))
  else if opcodeByte w = 0x12 then accept (field w 16 8 = 0 && field w 0 12 = 0) (.readout rs1)
  else if opcodeByte w = 0x20 then accept (field w 16 4 = 0 && field w 0 8 = 0) (.mul rd rs1 rs2)
  else if opcodeByte w = 0x21 then accept (field w 0 8 = 0) (.div rd rd2 rs1 rs2)
  else if opcodeByte w = 0x30 then accept (field w 4 4 = 0) (.egcd rd rd2 rx rs1 rs2)
  else if opcodeByte w = 0x31 then accept (field w 16 4 = 0 && field w 0 8 = 0) (.modinv rd rs1 rs2)
  else if opcodeByte w = 0x40 then accept (field w 16 4 = 0 && field w 0 4 = 0) (.modexp rd rs1 rs2 rs3)
  else if opcodeByte w = 0x50 then accept (field w 0 12 = 0) (.mrdec rd rd2 rs1)
  else if opcodeByte w = 0x51 then accept (field w 16 4 = 0) (.mrw rd rs1 rs2 rs3 rx)
  else .error .reservedOpcode

/-! ### Encoding (R81, R84, R85) -/

/-- A word of format R: an opcode byte and six 4-bit fields (R81). -/
def packR (op : Nat) (rd rd2 rs1 rs2 rs3 rx : Reg) : Word :=
  BitVec.ofNat 32 (op * 2 ^ 24 + rd.val * 2 ^ 20 + rd2.val * 2 ^ 16 + rs1.val * 2 ^ 12 + rs2.val * 2 ^ 8
    + rs3.val * 2 ^ 4 + rx.val)

/-- The index of a system register (R28). -/
def sysRegIndex : SysReg → Nat
  | .id => 0
  | .status => 1
  | .errcmd => 2
  | .cap => 3

/-- The command word of a command (R81, R84, R85). -/
def encodeWord : Instr → Word
  | .nop => 0x00000000
  | .ack => 0x01000000
  | .rdsr sr => BitVec.ofNat 32 (0x02 * 2 ^ 24 + sysRegIndex sr)
  | .ldi rd _ => packR 0x10 rd 0 0 0 0 0
  | .li rd imm => BitVec.ofNat 32 (0x11 * 2 ^ 24 + rd.val * 2 ^ 20 + imm.toNat)
  | .readout rs1 => packR 0x12 0 0 rs1 0 0 0
  | .mul rd rs1 rs2 => packR 0x20 rd 0 rs1 rs2 0 0
  | .div rd rd2 rs1 rs2 => packR 0x21 rd rd2 rs1 rs2 0 0
  | .egcd rd rd2 rd3 rs1 rs2 => packR 0x30 rd rd2 rs1 rs2 0 rd3
  | .modinv rd rs1 rs2 => packR 0x31 rd 0 rs1 rs2 0 0
  | .modexp rd rs1 rs2 rs3 => packR 0x40 rd 0 rs1 rs2 rs3 0
  | .mrdec rd rd2 rs1 => packR 0x50 rd rd2 rs1 0 0 0
  | .mrw rd rs1 rs2 rs3 rs4 => packR 0x51 rd 0 rs1 rs2 rs3 rs4

/-- The payload a command owns (R52): that of `LDI`, and the empty one for every other. -/
def payloadOf : Instr → Payload
  | .nop => .empty
  | .ack => .empty
  | .rdsr _ => .empty
  | .ldi _ p => p
  | .li _ _ => .empty
  | .readout _ => .empty
  | .mul _ _ _ => .empty
  | .div _ _ _ _ => .empty
  | .egcd _ _ _ _ _ => .empty
  | .modinv _ _ _ => .empty
  | .modexp _ _ _ _ => .empty
  | .mrdec _ _ _ => .empty
  | .mrw _ _ _ _ _ => .empty

/-- The words of a payload: its header and its limbs (R54). -/
def payloadWords (p : Payload) : List Word := headerWord p.sign p.limbs.length :: p.limbs

/-- All words of a command in the order the host sends them (R52, R80). -/
def encode (i : Instr) : List Word :=
  match i with
  | .ldi _ p => encodeWord i :: payloadWords p
  | .nop => [encodeWord i]
  | .ack => [encodeWord i]
  | .rdsr _ => [encodeWord i]
  | .li _ _ => [encodeWord i]
  | .readout _ => [encodeWord i]
  | .mul _ _ _ => [encodeWord i]
  | .div _ _ _ _ => [encodeWord i]
  | .egcd _ _ _ _ _ => [encodeWord i]
  | .modinv _ _ _ => [encodeWord i]
  | .modexp _ _ _ _ => [encodeWord i]
  | .mrdec _ _ _ => [encodeWord i]
  | .mrw _ _ _ _ _ => [encodeWord i]

/-! ### Commands as the host issues them (R52) -/

/-- The payload is one the word can own: limbs that a header can count after the opcode byte 0x10, none after any other
(R52, R54). -/
def Command.wellFormed (c : Command) : Bool :=
  if opcodeByte c.word = 0x10 then decide (c.payload.limbs.length < 2 ^ 31) else decide (c.payload = .empty)

/-- The words of a command, legal or illegal, in the order the host sends them (R52). -/
def Command.words (c : Command) : List Word :=
  if opcodeByte c.word = 0x10 then c.word :: payloadWords c.payload else [c.word]

/-- A legal command as the host issues it. -/
def Instr.command (i : Instr) : Command := ⟨encodeWord i, payloadOf i⟩

/-! ### The opcode table of R85 as data -/

/-- A row of R85: the bits a word must show (`value`) where the mask has a one. -/
structure Row where
  mnemonic : String
  value : Word
  mask : Word
  deriving DecidableEq, Repr

/-- The thirteen rows of R85. -/
def opcodeTable : List Row :=
  [ ⟨"NOP", 0x00000000, 0xFFFFFFFF⟩,
    ⟨"ACK", 0x01000000, 0xFFFFFFFF⟩,
    ⟨"RDSR", 0x02000000, 0xFFFFFFFC⟩,
    ⟨"LDI", 0x10000000, 0xFF0FFFFF⟩,
    ⟨"LI", 0x11000000, 0xFF0F0000⟩,
    ⟨"RD", 0x12000000, 0xFFFF0FFF⟩,
    ⟨"MUL", 0x20000000, 0xFF0F00FF⟩,
    ⟨"DIV", 0x21000000, 0xFF0000FF⟩,
    ⟨"EGCD", 0x30000000, 0xFF0000F0⟩,
    ⟨"MODINV", 0x31000000, 0xFF0F00FF⟩,
    ⟨"MODEXP", 0x40000000, 0xFF0F000F⟩,
    ⟨"MRDEC", 0x50000000, 0xFF000FFF⟩,
    ⟨"MRW", 0x51000000, 0xFF0F0000⟩ ]

/-- A word is a candidate for a row (R85). -/
def Row.fits (r : Row) (w : Word) : Bool := decide (w &&& r.mask = r.value)

/-- The assembler's name of a command (R84, R90). -/
def mnemonicOf : Instr → String
  | .nop => "NOP"
  | .ack => "ACK"
  | .rdsr _ => "RDSR"
  | .ldi _ _ => "LDI"
  | .li _ _ => "LI"
  | .readout _ => "RD"
  | .mul _ _ _ => "MUL"
  | .div _ _ _ _ => "DIV"
  | .egcd _ _ _ _ _ => "EGCD"
  | .modinv _ _ _ => "MODINV"
  | .modexp _ _ _ _ => "MODEXP"
  | .mrdec _ _ _ => "MRDEC"
  | .mrw _ _ _ _ _ => "MRW"

/-! ### A table word as the host numbers its bits -/

/-- The first `k` words of the number `n`, the least significant first. -/
def wordsOf : Nat → Nat → List Word
  | 0, _ => []
  | k + 1, n => BitVec.ofNat 32 n :: wordsOf k (n / 2 ^ 32)

/-- `ws` with the zero words that a command begun in it still lacks: a header, and the limbs the header counts. -/
def padCommand : List Word → List Word
  | [] => []
  | w :: ws =>
    if opcodeByte w = 0x10 then
      match ws with
      | [] => [w, 0]
      | h :: ls => w :: h :: (ls ++ List.replicate (headerCount h - ls.length) 0)
    else w :: ws

/-- The words of an instruction whose bits are `w`, bit 0 the least significant bit of the first word, every bit from
`nbits` upward zero. -/
def tableWords (nbits w : Nat) : List Word :=
  padCommand (wordsOf (max 1 ((nbits + 31) / 32)) (w % 2 ^ nbits))

/-- What the decoder reads from such an instruction. -/
def decodeTableWord (nbits w : Nat) : Option Instr :=
  match cut (tableWords nbits w) with
  | .idle => none
  | .incomplete => none
  | .ready w' p _ =>
    match decode w' p with
    | .ok i => some i
    | .error _ => none

end Sys2Proof
end

