-- ==== Sys2Proof/Config.lean ====
section
/-! DEFINITION. What one built block fixes: the capacity of a register (R9) and the depth of its response queue (R59). `KBASE` (R10) is not here: no architectural
result depends on it (R122), and only the reference multiplier takes it, as an argument. -/

namespace Sys2Proof

/-- The values the parameter `MAXLIMBS` may have (R9): no bound at all, or a number of 32-bit limbs from 1 to
2^24 - 1. The finite case holds the number less one, so the range of R9 is the type's own. -/
inductive Limit where
  /-- `MAXLIMBS = ∞`. -/
  | unbounded
  /-- `MAXLIMBS = pred + 1`. -/
  | limbs (pred : Fin 16777215)
  deriving DecidableEq, Repr, Inhabited

/-- The parameter `MAXLIMBS` of the block (R9, D2). OPEN in the spec: it has no body, so every statement about the model
holds for every value of it (log 1). -/
opaque Config.maxLimbs : Limit

/-- How many words the queue of the response channel holds beyond one. OPEN in the spec, which says only that the queue
holds at least one word (R59, U15): it has no body, so every statement about the model holds for every depth (log 5). -/
opaque Config.rspRoom : Nat

/-- The depth of the response queue in words, at least one (R59). -/
def Config.rspDepth : Nat := Config.rspRoom + 1

end Sys2Proof
end

