-- ==== Sys2Proof/Machine/State.lean ====
section
/-! DEFINITION. The whole architectural state of the block (R20), its reset value (R38), and the reasons for which the
model has no step. -/

namespace Sys2Proof.Machine

/-- Why the engine has no step (R259, U17). A command fault of the spec is none of these: it is a next state. -/
inductive Fault where
  /-- Raised by `step` when the command channel is empty: the engine is idle and waits for the host (R242). Safe: the
  machine stops where the hardware waits. -/
  | idle
  /-- Raised by `step` when a command has begun and not all its words have arrived: the engine holds until the host
  sends them (R60, R259). Safe: the machine stops where the hardware waits. -/
  | incompleteCommand
  /-- Raised by `step` when a whole command has arrived and the response queue is full: the engine holds until the host
  takes a response word (R59, R259). Safe: the machine stops where the hardware waits. -/
  | responseFull
  deriving DecidableEq, Repr

/-- What the model declines to give a meaning. -/
inductive Refusal where
  /-- Raised by `exec` for a command that has no meaning in the model yet. Safe: nothing is said of it. -/
  | notModelled (mnemonic : String)
  /-- Raised by `RD` of a value of 2^31 - 1 limbs or more, which the spec says cannot be read out; possible only when
  `MAXLIMBS = ∞` (R112, U22). Safe: nothing is said of it. -/
  | readTooLong
  deriving DecidableEq, Repr

/-- The state (R20). Plain data; no other state is architectural (R35, R37). -/
structure State where
  /-- The sixteen big-integer registers (R21). `none` is a register with valid bit 0, which holds no value (R23, R252);
  `some v` is one with valid bit 1 that holds the integer `v` (R22). -/
  regs : Vector (Option Int) 16
  /-- `STATUS.ERR`, the error latch (R32). -/
  err : Bool
  /-- `STATUS.LOST` (R32). -/
  lost : Bool
  /-- `STATUS.ERRCODE` (R32). -/
  errCode : BitVec 4
  /-- `ERRCMD`, the word of the command whose fault set the latch (R33). -/
  errCmd : Word
  /-- The words in the command channel, the oldest first (R52). -/
  cmd : List Word
  /-- The words in the response channel, the oldest first (R57). -/
  rsp : List Word
  deriving DecidableEq, Repr

/-- The state right after reset (R38, R250): every valid bit 0, `STATUS` and `ERRCMD` 0, both channels empty. -/
def State.reset : State where
  regs := Vector.replicate 16 none
  err := false
  lost := false
  errCode := 0
  errCmd := 0
  cmd := []
  rsp := []

end Sys2Proof.Machine
end

