-- ==== Sys2Proof/Machine/Flags.lean ====
section
/-! DEFINITION. The response codes (R221) and the system registers (R31 to R34). The block has no condition codes (R27):
`STATUS` is all there is. -/

namespace Sys2Proof.Machine

/-- The faults a command can raise (R221, R222 to R225, R227). Codes 3 and 4 are the host software's and are never
raised by the block (R234). -/
inductive CmdFault where
  | invalidArgument
  | noInverseExists
  | illegalCommand
  | uninitRead
  | capacityExceeded
  deriving DecidableEq, Repr

/-- The code of a fault (R221). -/
def faultCode : CmdFault → BitVec 4
  | .invalidArgument => 1
  | .noInverseExists => 2
  | .illegalCommand => 5
  | .uninitRead => 6
  | .capacityExceeded => 7

/-- The code of a command that completes (R221). -/
def okCode : BitVec 4 := 0

/-- The code of a command dropped because the latch is set (R221, R228). -/
def blockedCode : BitVec 4 := 8

/-- `ID` (R31). -/
def idWord : Word := 0x43303101

/-- `STATUS` (R32): `ERR` in bit 0, `LOST` in bit 1, `ERRCODE` in bits 7:4, zero elsewhere (R30). -/
def statusWord (s : State) : Word :=
  BitVec.ofNat 32 (s.err.toNat + s.lost.toNat * 2 + s.errCode.toNat * 16)

/-- The field `CAP.MAXLIMBS` (R34): the parameter, or 0 for infinity. -/
def limitField : Limit → Nat
  | .unbounded => 0
  | .limbs p => p.val + 1

/-- `CAP` (R34) of a block whose capacity is `m`. -/
def capWordOf (m : Limit) : Word := BitVec.ofNat 32 (16 * 2 ^ 24 + limitField m)

/-- `CAP` (R34) of this block. -/
def capWord : Word := capWordOf Config.maxLimbs

/-- The value of a system register (R28). -/
def readSysReg (sr : SysReg) (s : State) : Word :=
  match sr with
  | .id => idWord
  | .status => statusWord s
  | .errcmd => s.errCmd
  | .cap => capWord

end Sys2Proof.Machine
end

