-- ==== Sys2Proof/Machine/Operands.lean ====
section
/-! DEFINITION. Every form an operand or a result takes: register reads, the immediate of `LI`, the payload of `LDI`, the
output form of `RD`, and what fits a register. -/

namespace Sys2Proof.Machine

/-- `bitLength` of a magnitude (R12). -/
def bitLength (m : Nat) : Nat := if m = 0 then 0 else Nat.log2 m + 1

/-! ### Capacity (R9, R24) -/

/-- `n` limbs are no more than `MAXLIMBS = m`. -/
def Limit.admitsLimbs (m : Limit) (n : Nat) : Bool :=
  match m with
  | .unbounded => true
  | .limbs p => decide (n ≤ p.val + 1)

/-- `n` bits are no more than `MAXBITS = 32 · MAXLIMBS` for `MAXLIMBS = m`. -/
def Limit.admitsBits (m : Limit) (n : Nat) : Bool :=
  match m with
  | .unbounded => true
  | .limbs p => decide (n ≤ 32 * (p.val + 1))

/-- A payload of `n` limbs is within the block's capacity (R110). One limb always is, since `MAXLIMBS ≥ 1` (R9): saying
so first lets small cases be evaluated although `MAXLIMBS` is open (log 1). -/
def limbsFit (n : Nat) : Bool := decide (n ≤ 1) || Limit.admitsLimbs Config.maxLimbs n

/-- A value fits a register: `bitLength(|v|) ≤ MAXBITS` (R24). One limb always fits, as in `limbsFit`. -/
def fits (v : Int) : Bool :=
  decide (bitLength v.natAbs ≤ 32) || Limit.admitsBits Config.maxLimbs (bitLength v.natAbs)

/-! ### Register operands (R14, R23) -/

/-- `x[r]`: the value of register `r`, or `UninitRead` if its valid bit is 0 (R14, R23). -/
def readReg (r : Reg) (s : State) : Except CmdFault Int :=
  match s.regs[r] with
  | some v => .ok v
  | none => .error .uninitRead

/-- The operand values satisfy a condition whose failure is `InvalidArgument` (R224). -/
def requireArg (c : Bool) : Except CmdFault Unit := if c then .ok () else .error .invalidArgument

/-! ### Immediates and payloads (R83, R54, R55) -/

/-- `sext_16` (R13, R83). -/
def sext16 (imm : BitVec 16) : Int := imm.toInt

/-- The magnitude of a list of limbs, the least significant first (R54). -/
def magnitude : List Word → Nat
  | [] => 0
  | w :: ws => w.toNat + 2 ^ 32 * magnitude ws

/-- The value of a payload (R54). -/
def payloadValue (p : Payload) : Int := if p.sign then -(magnitude p.limbs : Int) else magnitude p.limbs

/-- `ceil(bitLength(m) / 32)`, the number of limbs of a magnitude in canonical form (R55). -/
def limbCount (m : Nat) : Nat := (bitLength m + 31) / 32

/-- The `n` lowest limbs of a magnitude, the least significant first (R55). -/
def lowLimbs : Nat → Nat → List Word
  | 0, _ => []
  | n + 1, m => BitVec.ofNat 32 m :: lowLimbs n (m / 2 ^ 32)

/-- The canonical payload of a value (R55). -/
def canonicalPayload (v : Int) : Payload := ⟨decide (v < 0), lowLimbs (limbCount v.natAbs) v.natAbs⟩

/-- The value in register `r` is too long to be read out: it has 2^31 - 1 limbs or more (R112, U22; log 9). -/
def readTooLong (r : Reg) (s : State) : Bool :=
  match s.regs[r] with
  | some v => decide (2 ^ 31 - 1 ≤ limbCount v.natAbs)
  | none => false

end Sys2Proof.Machine
end

