-- ==== Sys2Proof/Machine/Ops.lean ====
section
/-! DEFINITION. The operations every command is made of: register writes, responses, entering and leaving the error
latch, the common frame of R229, the head of the command channel, and what the host can do to the block. -/

namespace Sys2Proof.Machine

/-! ### Registers and responses -/

/-- `x[r] <- v` (R24), the capacity check having passed. -/
def writeReg (r : Reg) (v : Int) (s : State) : State := { s with regs := s.regs.set r (some v) }

/-- The register writes of a command, all of them (R229 step 8). -/
def writeAll : List (Reg × Int) → State → State
  | [], s => s
  | (r, v) :: ws, s => writeAll ws (writeReg r v s)

/-- `RespOut(code, words)`: a status word with the code in bits 3:0 and zero above, then the payload (R58). -/
def respond (code : BitVec 4) (payload : List Word) (s : State) : State :=
  { s with rsp := s.rsp ++ BitVec.ofNat 32 code.toNat :: payload }

/-! ### The error latch -/

/-- Fault entry (R226), the block's taking of an exception: the latch is set, the code and the command word are
recorded, the response is the code alone. Nothing else changes. -/
def takeFault (e : CmdFault) (w : Word) (s : State) : State :=
  respond (faultCode e) [] { s with err := true, errCode := faultCode e, errCmd := w }

/-- A command dropped because the latch is set (R228). -/
def dropBlocked (s : State) : State := respond blockedCode [] { s with lost := true }

/-- `ACK` (R171, R232), the block's return from an exception: the latch and what it recorded are cleared. -/
def acknowledge (s : State) : State :=
  respond okCode [] { s with err := false, lost := false, errCode := 0, errCmd := 0 }

/-! ### The common frame (R229) -/

/-- What a command that raised no fault so far will do: its register writes and the payload of its response. -/
structure Result where
  writes : List (Reg × Int)
  payload : List Word
  deriving DecidableEq, Repr

/-- Steps 7 and 8 of R229 for a command with word `w`: a fault raised so far is taken; a result that does not fit is
`CapacityExceeded` and nothing is written; otherwise all destinations are written and the response is `OK`. -/
def finish (w : Word) (r : Except CmdFault Result) (s : State) : State :=
  match r with
  | .error e => takeFault e w s
  | .ok res =>
    if res.writes.all (fun p => fits p.2) then respond okCode res.payload (writeAll res.writes s)
    else takeFault .capacityExceeded w s

/-- The frame of every command but `ACK` and `RDSR` (R229): with the latch set it is `Blocked`; a term whose destination
fields are not pairwise different is the illegal word it encodes to; otherwise `r`, which is steps 3 to 6, decides. -/
def runCommand (i : Instr) (r : Except CmdFault Result) (s : State) : State :=
  if s.err then dropBlocked s
  else if distinctDests i then finish (encodeWord i) r s
  else takeFault .illegalCommand (encodeWord i) s

/-- A word that decodes to `Illegal` (R222, R229 steps 1 and 2). -/
def execIllegal (w : Word) (s : State) : State :=
  if s.err then dropBlocked s else takeFault .illegalCommand w s

/-! ### The head of the command channel -/

/-- The cut of the command channel (R52). -/
def fetch (s : State) : Cut := cut s.cmd

/-- The response queue is full (R59): the words the host has not taken reach its depth. Those beyond the depth are the
rest of the last response, which the engine still has to put into the queue. An empty channel never is full, since the
depth is at least one: saying so first lets such a state be evaluated although the depth is open (log 5). -/
def rspFull (s : State) : Bool := !s.rsp.isEmpty && decide (Config.rspDepth ≤ s.rsp.length)

/-- The words of a command have been taken from the channel and `rest` is left (R53, R56). -/
def consume (rest : List Word) (s : State) : State := { s with cmd := rest }

/-- The words of the instruction `w` (as the opcode table numbers its bits) stand at the head of the command channel, in
front of whatever is there; and where a full response queue would hold the engine, the host has taken its words. -/
def placeInstr (nbits w : Nat) (s : State) : State :=
  { s with cmd := tableWords nbits w ++ s.cmd, rsp := if rspFull s then [] else s.rsp }

/-! ### What the host can do (R51, R60) -/

/-- The host sends a word on the command channel (R52). -/
def hostSend (w : Word) (s : State) : State := { s with cmd := s.cmd ++ [w] }

/-- The host takes a word from the response channel, if one is there (R57). -/
def hostTake (s : State) : Option (Word × State) :=
  match s.rsp with
  | [] => none
  | w :: ws => some (w, { s with rsp := ws })

/-- Reset by `rst_n` (R250), at any time: both channels are discarded, nothing survives. -/
def applyReset (_ : State) : State := State.reset

/-- The levels of the block's ports at one rising edge of `clk` (R51). `cmd_ready` is the block's, but the spec leaves
open when it is high (R59), so it is given here as it was seen; `rsp_valid` is high only when a word is there. -/
structure PortLevels where
  rstN : Bool
  cmdValid : Bool
  cmdReady : Bool
  cmdData : Word
  rspReady : Bool
  deriving DecidableEq, Repr

/-- A word is in the response channel, so that `rsp_valid` can be high (R51). -/
def rspValid (s : State) : Bool := !s.rsp.isEmpty

/-- `rsp_data`: the oldest word of the response channel (R51, R57). -/
def rspData (s : State) : Option Word := s.rsp.head?

/-- One clock edge of the ports (R51): reset while `rst_n` is low; otherwise a word enters the command channel if
`cmd_valid` and `cmd_ready` are both 1, and the oldest response word leaves if `rsp_valid` and `rsp_ready` are both 1. -/
def portCycle (p : PortLevels) (s : State) : State :=
  if p.rstN then
    let s' := if p.cmdValid && p.cmdReady then hostSend p.cmdData s else s
    if p.rspReady && rspValid s then { s' with rsp := s.rsp.tail } else s'
  else applyReset s

end Sys2Proof.Machine
end

