-- ==== Sys2Proof/Machine/DataMovement.lean ====
section
/-! DEFINITION. The data movement commands `LDI`, `LI` and `RD` (R110 to R112). -/

namespace Sys2Proof.Machine

/-- `LDI rd` (R110): the payload's value, unless the payload has more limbs than a register (the limb count decides, not
the value). -/
def execLdi (rd : Reg) (p : Payload) (s : State) : Host.Outcome State Fault Refusal :=
  .next (runCommand (.ldi rd p)
    (if limbsFit p.limbs.length then .ok ⟨[(rd, payloadValue p)], []⟩ else .error .capacityExceeded) s)

/-- `LI rd, imm16` (R111): the sign-extended immediate. -/
def execLi (rd : Reg) (imm : BitVec 16) (s : State) : Host.Outcome State Fault Refusal :=
  .next (runCommand (.li rd imm) (.ok ⟨[(rd, sext16 imm)], []⟩) s)

/-- `RD rs1` (R112): the value in canonical form as the response's payload; no register changes. A value of 2^31 - 1
limbs or more is refused (U22); with `MAXLIMBS` finite there is none. -/
def execRd (rs1 : Reg) (s : State) : Host.Outcome State Fault Refusal :=
  if !s.err && readTooLong rs1 s then .refused .readTooLong
  else .next (runCommand (.readout rs1)
    (do
      let v ← readReg rs1 s
      .ok ⟨[], payloadWords (canonicalPayload v)⟩) s)

/-- The `LDI` the assembler emits for `LDI rd, #v` (R90): the payload is the canonical form of `v`. -/
def ldiOf (rd : Reg) (v : Int) : Instr := .ldi rd (canonicalPayload v)

end Sys2Proof.Machine
end

