-- ==== Sys2Proof/Machine/Divide.lean ====
section
/-! DEFINITION. The divider: `DIV` (R130) by its contract (R132), and the bit-serial reference algorithm (R131). -/

namespace Sys2Proof.Machine

/-- `DIV rd, rd2, rs1, rs2` (R130): quotient and remainder; `InvalidArgument` for a divisor that is not positive or a
negative dividend. -/
def execDiv (rd rd2 rs1 rs2 : Reg) (s : State) : Host.Outcome State Fault Refusal :=
  .next (runCommand (.div rd rd2 rs1 rs2)
    (do
      let n ← readReg rs1 s
      let d ← readReg rs2 s
      requireArg (decide (0 < d) && decide (0 ≤ n))
      .ok ⟨[(rd, n / d), (rd2, n % d)], []⟩) s)

/-- One step of the loop of `DivRef` for the dividend bit `b` (R131). -/
def divStep (d : Nat) (b : Nat) (qr : Nat × Nat) : Nat × Nat :=
  if d ≤ 2 * qr.2 + b then (2 * qr.1 + 1, 2 * qr.2 + b - d) else (2 * qr.1, 2 * qr.2 + b)

/-- The loop of `DivRef` for the bits `i - 1` down to 0 of the dividend (R131). -/
def divLoop (n d : Nat) : Nat → Nat × Nat → Nat × Nat
  | 0, qr => qr
  | i + 1, qr => divLoop n d i (divStep d (n / 2 ^ i % 2) qr)

/-- `DivRef` (R131): binary long division, the most significant bit first. -/
def divRef (n d : Nat) : Nat × Nat := divLoop n d (bitLength n) (0, 0)

end Sys2Proof.Machine
end

