-- ==== Sys2Proof/Machine/Egcd.lean ====
section
/-! DEFINITION. The GCD and Bézout solver: `EGCD` (R140) and `MODINV` (R141) over the normative recursion (R142), and the
iterative form a hardware unit uses (R142). -/

namespace Sys2Proof.Machine

/-- A `BezoutResult`: gcd and the two coefficients, each under its own name (R82, R147). -/
structure Bezout where
  g : Nat
  x : Int
  y : Int
  deriving DecidableEq, Repr

/-- The step of `EgcdRef` after its recursive call (R142): `(g, y1, x1 - q·y1)`. -/
def Bezout.unwind (q : Nat) (r : Bezout) : Bezout := ⟨r.g, r.y, r.x - q * r.y⟩

/-- The recursion of `EgcdRef` (R142), to a depth of `fuel` at most. -/
def egcdGo : Nat → Nat → Nat → Bezout
  | 0, a, _ => ⟨a, 1, 0⟩
  | fuel + 1, a, b => if b = 0 then ⟨a, 1, 0⟩ else Bezout.unwind (a / b) (egcdGo fuel b (a % b))

/-- `EgcdRef` (R142). The second argument falls at every call, so a depth of `b` suffices. -/
def egcdRef (a b : Nat) : Bezout := egcdGo b a b

/-- `EGCD rd, rd2, rd3, rs1, rs2` (R140). -/
def execEgcd (rd rd2 rd3 rs1 rs2 : Reg) (s : State) : Host.Outcome State Fault Refusal :=
  .next (runCommand (.egcd rd rd2 rd3 rs1 rs2)
    (do
      let a ← readReg rs1 s
      let b ← readReg rs2 s
      requireArg (decide (0 ≤ a) && decide (0 ≤ b))
      let r := egcdRef a.toNat b.toNat
      .ok ⟨[(rd, (r.g : Int)), (rd2, r.x), (rd3, r.y)], []⟩) s)

/-- The outcome of `MODINV` once its arguments are valid (R141, R229 step 6). -/
def modInverse (a m : Nat) : Except CmdFault Int :=
  let r := egcdRef a m
  if r.g = 1 then .ok (r.x % (m : Int)) else .error .noInverseExists

/-- `MODINV rd, rs1, rs2` (R141). -/
def execModinv (rd rs1 rs2 : Reg) (s : State) : Host.Outcome State Fault Refusal :=
  .next (runCommand (.modinv rd rs1 rs2)
    (do
      let a ← readReg rs1 s
      let m ← readReg rs2 s
      requireArg (decide (0 ≤ a) && decide (1 ≤ m))
      let v ← modInverse a.toNat m.toNat
      .ok ⟨[(rd, v)], []⟩) s)

/-- The loop of `EgcdIter` (R142) on the pairs `r`, `s`, `t`, for `fuel` rounds at most. -/
def egcdLoop : Nat → Nat × Nat → Int × Int → Int × Int → Bezout
  | 0, r, s, t => ⟨r.1, s.1, t.1⟩
  | fuel + 1, r, s, t =>
    if r.2 = 0 then ⟨r.1, s.1, t.1⟩
    else
      let q := r.1 / r.2
      egcdLoop fuel (r.2, r.1 - q * r.2) (s.2, s.1 - q * s.2) (t.2, t.1 - q * t.2)

/-- `EgcdIter` (R142): the form without a stack. -/
def egcdIter (a b : Nat) : Bezout := egcdLoop b (a, b) (1, 0) (0, 1)

end Sys2Proof.Machine
end

