-- ==== Sys2Proof/Machine/ModExp.lean ====
section
/-! DEFINITION. The modular exponentiation engine: `MODEXP` (R150) by its value (R151), and the Montgomery reference
algorithm (R152). -/

namespace Sys2Proof.Machine

/-- Square and multiply on the exponent's bits, the most significant first, to a depth of `fuel` bits. -/
def modPowGo (b n : Nat) : Nat → Nat → Nat
  | 0, _ => 1 % n
  | fuel + 1, e =>
    if e = 0 then 1 % n
    else
      let h := modPowGo b n fuel (e / 2)
      if e % 2 = 1 then h * h % n * b % n else h * h % n

/-- `ModPow(b, e, n) = (b^e) mod n` (R151), by binary exponentiation so that it can be evaluated (log 10). -/
def modPow (b e n : Nat) : Nat := modPowGo (b % n) n (bitLength e) e

/-- `MODEXP rd, rs1, rs2, rs3` (R150): `InvalidArgument` for a modulus that is even or not positive, a negative exponent
or a negative base. -/
def execModexp (rd rs1 rs2 rs3 : Reg) (s : State) : Host.Outcome State Fault Refusal :=
  .next (runCommand (.modexp rd rs1 rs2 rs3)
    (do
      let b ← readReg rs1 s
      let e ← readReg rs2 s
      let n ← readReg rs3 s
      requireArg (decide (1 ≤ n) && decide (n % 2 = 1) && decide (0 ≤ e) && decide (0 ≤ b))
      .ok ⟨[(rd, (modPow b.toNat e.toNat n.toNat : Int))], []⟩) s)

/-- `REDC` (R152) for the radix `2^k`, the modulus `n` and `n' = nInv`. -/
def redc (k n nInv t : Nat) : Nat :=
  let m := t % 2 ^ k * nInv % 2 ^ k
  let u := (t + m * n) / 2 ^ k
  if n ≤ u then u - n else u

/-- The number of bits of the radix (R152): a whole number of limbs, at least one. -/
def radixBits (n : Nat) : Nat := 32 * max 1 (limbCount n)

/-- `n'` (R152): the number in `[0, R)` with `(n · n') mod R = R - 1`, from the inverse of `n` modulo `R`. -/
def montInv (n radix : Nat) : Nat := ((-(egcdRef n radix).x) % (radix : Int)).toNat

/-- The loop of `MontExp` for the bits `i - 1` down to 0 of the exponent (R152). -/
def montLoop (k n nInv xb e : Nat) : Nat → Nat → Nat
  | 0, acc => acc
  | i + 1, acc =>
    let sq := redc k n nInv (acc * acc)
    montLoop k n nInv xb e i (if e / 2 ^ i % 2 = 1 then redc k n nInv (sq * xb) else sq)

/-- `MontExp` (R152), for odd `n`. -/
def montExp (b e n : Nat) : Nat :=
  let k := radixBits n
  let radix := 2 ^ k
  let nInv := montInv n radix
  let xb := redc k n nInv (b % n * (radix * radix % n))
  redc k n nInv (montLoop k n nInv xb e (bitLength e) (radix % n))

end Sys2Proof.Machine
end

