-- ==== Sys2Proof/Machine/MillerRabin.lean ====
section
/-! DEFINITION. The Miller-Rabin kernel: `MRDEC` (R160) and `MRW` (R161). -/

namespace Sys2Proof.Machine

/-- The loop of `MRDEC` (R160), for `fuel` halvings at most: from `(u, r)`, halve `u` and count while it is even. -/
def oddPartGo : Nat → Nat → Nat → Nat × Nat
  | 0, u, r => (u, r)
  | fuel + 1, u, r => if u % 2 = 0 then oddPartGo fuel (u / 2) (r + 1) else (u, r)

/-- The odd part of a positive number and the exponent of two that goes with it (R160). A number has fewer halvings than
bits. -/
def oddPart (m : Nat) : Nat × Nat := oddPartGo (bitLength m) m 0

/-- `MRDEC rd, rd2, rs1` (R160): `InvalidArgument` for `n < 2`. -/
def execMrdec (rd rd2 rs1 : Reg) (s : State) : Host.Outcome State Fault Refusal :=
  .next (runCommand (.mrdec rd rd2 rs1)
    (do
      let n ← readReg rs1 s
      requireArg (decide (2 ≤ n))
      let ur := oddPart (n - 1).toNat
      .ok ⟨[(rd, (ur.1 : Int)), (rd2, (ur.2 : Int))], []⟩) s)

/-- The squarings of `WitnessRef` (R162): `k` of them at most, stopping with 1 at the first that gives `n - 1`. -/
def witnessSquares (n : Nat) : Nat → Nat → Nat
  | 0, _ => 0
  | k + 1, x => if modPow x 2 n = n - 1 then 1 else witnessSquares n k (modPow x 2 n)

/-- `WitnessRef` (R162): 1 if the base passes the round, 0 if it fails. -/
def witnessRef (base r u n : Nat) : Nat :=
  let x := modPow base u n
  if x = 1 ∨ x = n - 1 then 1 else witnessSquares n (r - 1) x

/-- `MRW rd, rs1, rs2, rs3, rs4` (R161): `InvalidArgument` for `n` even or below 3, or a negative base, `r` or `u`. -/
def execMrw (rd rs1 rs2 rs3 rs4 : Reg) (s : State) : Host.Outcome State Fault Refusal :=
  .next (runCommand (.mrw rd rs1 rs2 rs3 rs4)
    (do
      let base ← readReg rs1 s
      let r ← readReg rs2 s
      let u ← readReg rs3 s
      let n ← readReg rs4 s
      requireArg (decide (3 ≤ n) && decide (n % 2 = 1) && decide (0 ≤ base) && decide (0 ≤ r) && decide (0 ≤ u))
      .ok ⟨[(rd, (witnessRef base.toNat r.toNat u.toNat n.toNat : Int))], []⟩) s)

end Sys2Proof.Machine
end

