-- ==== Sys2Proof/Machine/Multiply.lean ====
section
/-! DEFINITION. The multiplier: `MUL` (R120) by its exact product (R122), and the Karatsuba reference structure (R121). -/

namespace Sys2Proof.Machine

/-- `MUL rd, rs1, rs2` (R120, R122): the exact product. -/
def execMul (rd rs1 rs2 : Reg) (s : State) : Host.Outcome State Fault Refusal :=
  .next (runCommand (.mul rd rs1 rs2)
    (do
      let x ← readReg rs1 s
      let y ← readReg rs2 s
      .ok ⟨[(rd, x * y)], []⟩) s)

/-- The recursion of `KMul` (R121), to a depth of `fuel` at most; 0 where the depth does not suffice. -/
def kMulGo (kbase : Nat) : Nat → Nat → Nat → Nat
  | 0, _, _ => 0
  | fuel + 1, x, y =>
    if bitLength x ≤ kbase ∧ bitLength y ≤ kbase then x * y
    else
      let n := (max (bitLength x) (bitLength y) + 1) / 2
      let a := x % 2 ^ n
      let b := x / 2 ^ n
      let c := y % 2 ^ n
      let d := y / 2 ^ n
      let ac := kMulGo kbase fuel a c
      let bd := kMulGo kbase fuel b d
      let m := kMulGo kbase fuel (a + b) (c + d)
      ac + (m - ac - bd) * 2 ^ n + bd * 2 ^ (2 * n)

/-- `KMul` (R121) with the base-case threshold `kbase`. The larger bit length falls at every level when `kbase ≥ 3`
(R122), so this depth suffices. -/
def kMul (kbase x y : Nat) : Nat := kMulGo kbase (max (bitLength x) (bitLength y) + 1) x y

/-- The product as R120 spells it: `KMul` of the magnitudes, and the exclusive or of the signs. -/
def kProduct (kbase : Nat) (x y : Int) : Int :=
  let m := kMul kbase x.natAbs y.natAbs
  if (decide (x < 0) ^^ decide (y < 0)) && decide (m ≠ 0) then -(m : Int) else m

end Sys2Proof.Machine
end

