-- ==== Sys2Proof/Machine/System.lean ====
section
/-! DEFINITION. The system commands `NOP`, `ACK` and `RDSR` (R170 to R172). -/

namespace Sys2Proof.Machine

/-- `NOP` (R170): the response `OK`; no state changes. -/
def execNop (s : State) : Host.Outcome State Fault Refusal := .next (runCommand .nop (.ok ⟨[], []⟩) s)

/-- `ACK` (R171), executed with the latch set or clear (R228). -/
def execAck (s : State) : Host.Outcome State Fault Refusal := .next (acknowledge s)

/-- `RDSR sr` (R172), executed with the latch set or clear (R228): the response is `OK` and the register's value. -/
def execRdsr (sr : SysReg) (s : State) : Host.Outcome State Fault Refusal :=
  .next (respond okCode [readSysReg sr s] s)

end Sys2Proof.Machine
end

