-- ==== Sys2Proof/Machine/Dispatch.lean ====
section
/-! DEFINITION. The meaning of every command, one arm each. -/

namespace Sys2Proof.Machine

/-- The step of a decoded command (R53, R229), its words having been taken from the command channel. -/
def exec (i : Instr) (s : State) : Host.Outcome State Fault Refusal :=
  match i with
  | .nop => Sys2Proof.Machine.execNop s
  | .ack => Sys2Proof.Machine.execAck s
  | .rdsr sr => Sys2Proof.Machine.execRdsr sr s
  | .ldi rd p => Sys2Proof.Machine.execLdi rd p s
  | .li rd imm => Sys2Proof.Machine.execLi rd imm s
  | .readout rs1 => Sys2Proof.Machine.execRd rs1 s
  | .mul rd rs1 rs2 => Sys2Proof.Machine.execMul rd rs1 rs2 s
  | .div rd rd2 rs1 rs2 => Sys2Proof.Machine.execDiv rd rd2 rs1 rs2 s
  | .egcd rd rd2 rd3 rs1 rs2 => Sys2Proof.Machine.execEgcd rd rd2 rd3 rs1 rs2 s
  | .modinv rd rs1 rs2 => Sys2Proof.Machine.execModinv rd rs1 rs2 s
  | .modexp rd rs1 rs2 rs3 => Sys2Proof.Machine.execModexp rd rs1 rs2 rs3 s
  | .mrdec rd rd2 rs1 => Sys2Proof.Machine.execMrdec rd rd2 rs1 s
  | .mrw rd rs1 rs2 rs3 rs4 => Sys2Proof.Machine.execMrw rd rs1 rs2 rs3 rs4 s

end Sys2Proof.Machine
end

