-- ==== Sys2Proof/Machine/Execute.lean ====
section
/-! DEFINITION. The function `exec : State × Command → State × Response` of R53 on every command, legal or illegal, and
its fold over a list of commands (R66). The response is what the response channel gains. -/

namespace Sys2Proof.Machine

/-- The step of a command whose words have been taken from the command channel (R53, R229). A word that decodes to
`Illegal` is executed as R222 says. -/
def execCommand (c : Command) (s : State) : Host.Outcome State Fault Refusal :=
  match decode c.word c.payload with
  | .ok i => exec i s
  | .error _ => .next (execIllegal c.word s)

/-- Executing a list of commands one after the other (R66). -/
def execAll : List Command → State → Host.Outcome State Fault Refusal
  | [], s => .next s
  | c :: cs, s =>
    match execCommand c s with
    | .next t => execAll cs t
    | .fault f => .fault f
    | .refused r => .refused r

/-- The responses to a list of commands, one each, up to the first that has no step (R57). -/
def responsesOf : List Command → State → List (List Word)
  | [], _ => []
  | c :: cs, s =>
    match execCommand c s with
    | .next t => t.rsp.drop s.rsp.length :: responsesOf cs t
    | .fault _ => []
    | .refused _ => []

/-- Every status word of the responses has code 0: no command of the list faulted or was blocked (R258). -/
def allClean (cs : List Command) (s : State) : Bool :=
  (responsesOf cs s).all (fun r => decide (r.head? = some 0))

end Sys2Proof.Machine
end

