-- ==== Sys2Proof/Machine/Step.lean ====
section
/-! DEFINITION. One step of the engine (R53, R229), and how an instruction is put where the next step takes it. -/

namespace Sys2Proof.Machine

/-- One step of the engine: the command at the head of the command channel, whole, is taken and executed. With no whole
command, and with the response queue full, there is no step (R59, R60, R259). -/
def step (s : State) : Host.Outcome State Fault Refusal :=
  match fetch s with
  | .idle => .fault .idle
  | .incomplete => .fault .incompleteCommand
  | .ready w p rest =>
    if rspFull s then .fault .responseFull else execCommand ⟨w, p⟩ (consume rest s)

/-- The state with the instruction `w` at the head of the command channel, so that the next step runs it (log 7). -/
def State.withFetchWord (s : State) (nbits w : Nat) : State := placeInstr nbits w s

end Sys2Proof.Machine
end

