-- ==== Sys2Proof/Machine/Assembler.lean ====
section
/-! DEFINITION. The assembler (R87, R90, R91): from the text of a program to its commands and to the words the host
sends. -/

namespace Sys2Proof.Machine

/-- A blank between the parts of a line. -/
def isBlank (c : Char) : Bool := c = ' ' || c = '\t'

/-- A piece of text without blanks at its ends. -/
def trimBlanks (cs : List Char) : List Char := ((cs.dropWhile isBlank).reverse.dropWhile isBlank).reverse

/-- The pieces of a text between the characters `sep`. -/
def pieces (sep : Char) : List Char → List (List Char)
  | [] => [[]]
  | c :: cs =>
    if c = sep then [] :: pieces sep cs
    else
      match pieces sep cs with
      | [] => [[c]]
      | p :: ps => (c :: p) :: ps

/-- The value of a digit, in either case of a hexadecimal letter. -/
def digitValue (c : Char) : Nat :=
  if '0' ≤ c ∧ c ≤ '9' then c.toNat - '0'.toNat
  else if 'a' ≤ c ∧ c ≤ 'f' then c.toNat - 'a'.toNat + 10
  else if 'A' ≤ c ∧ c ≤ 'F' then c.toNat - 'A'.toNat + 10
  else 16

/-- The number that the digits after `acc` give in a base of at most 16. -/
def readDigits (base : Nat) : Nat → List Char → Option Nat
  | acc, [] => some acc
  | acc, c :: cs => if digitValue c < base then readDigits base (acc * base + digitValue c) cs else none

/-- A decimal literal, or a hexadecimal one after `0x` (R90). -/
def readNat : List Char → Option Nat
  | [] => none
  | '0' :: 'x' :: c :: cs => readDigits 16 0 (c :: cs)
  | c :: cs => readDigits 10 0 (c :: cs)

/-- A literal with an optional leading minus sign, written as a hyphen or as the minus sign of the spec's text (R90; log
11). -/
def readInt : List Char → Option Int
  | '-' :: cs => (readNat cs).map (fun n => -(n : Int))
  | '−' :: cs => (readNat cs).map (fun n => -(n : Int))
  | cs => (readNat cs).map (fun n => (n : Int))

/-- A register, `x0` to `x15` (R90). -/
def readRegName : List Char → Option Reg
  | ['x', d] => (readDigits 10 0 [d]).bind (fun n => if h : n < 16 then some ⟨n, h⟩ else none)
  | ['x', '1', d] => (readDigits 10 1 [d]).bind (fun n => if h : n < 16 then some ⟨n, h⟩ else none)
  | _ => none

/-- A system register, by name or by index (R90). -/
def readSysRegName (cs : List Char) : Option SysReg :=
  if cs = "ID".toList then some .id
  else if cs = "STATUS".toList then some .status
  else if cs = "ERRCMD".toList then some .errcmd
  else if cs = "CAP".toList then some .cap
  else if cs = ['0'] then some .id
  else if cs = ['1'] then some .status
  else if cs = ['2'] then some .errcmd
  else if cs = ['3'] then some .cap
  else none

/-- The immediate of `LI`, in `[-32768, 32767]` (R90). -/
def readImm (cs : List Char) : Option (BitVec 16) :=
  (readInt cs).bind (fun v => if -32768 ≤ v ∧ v ≤ 32767 then some (BitVec.ofInt 16 v) else none)

/-- The integer after the `#` of `LDI` (R90). -/
def readPayload : List Char → Option Int
  | '#' :: cs => readInt cs
  | _ => none

/-- The command of a mnemonic and its register operands, in the order of R87, for the commands all of whose operands are
registers. -/
def commandOfRegs : String → List Reg → Option Instr
  | "NOP", [] => some .nop
  | "ACK", [] => some .ack
  | "RD", [rs1] => some (.readout rs1)
  | "MUL", [rd, rs1, rs2] => some (.mul rd rs1 rs2)
  | "DIV", [rd, rd2, rs1, rs2] => some (.div rd rd2 rs1 rs2)
  | "EGCD", [rd, rd2, rd3, rs1, rs2] => some (.egcd rd rd2 rd3 rs1 rs2)
  | "MODINV", [rd, rs1, rs2] => some (.modinv rd rs1 rs2)
  | "MODEXP", [rd, rs1, rs2, rs3] => some (.modexp rd rs1 rs2 rs3)
  | "MRDEC", [rd, rd2, rs1] => some (.mrdec rd rd2 rs1)
  | "MRW", [rd, rs1, rs2, rs3, rs4] => some (.mrw rd rs1 rs2 rs3 rs4)
  | "CLR", [rd] => some (.clr rd)
  | "SQR", [rd, rs] => some (.sqr rd rs)
  | _, _ => none

/-- The command of a mnemonic and the texts of its operands (R87, R90, R91). -/
def commandOf (mnemonic : String) (ops : List (List Char)) : Option Instr :=
  match mnemonic, ops with
  | "RDSR", [sr] => (readSysRegName sr).map .rdsr
  | "LI", [rd, imm] => (readRegName rd).bind (fun r => (readImm imm).map (.li r))
  | "LDI", [rd, v] => (readRegName rd).bind (fun r => (readPayload v).map (ldiOf r))
  | _, _ => (ops.mapM readRegName).bind (commandOfRegs mnemonic)

/-- The command of one line without its comment: a mnemonic, then operands separated by commas (R90). A term that is no
command of the block has no line (R85). -/
def assembleText (cs : List Char) : Option Instr :=
  let m := cs.takeWhile (fun c => !isBlank c)
  let rest := trimBlanks (cs.drop m.length)
  let ops := if rest = [] then [] else (pieces ',' rest).map trimBlanks
  (commandOf (String.ofList m) ops).bind (fun i => if i.wellFormed then some i else none)

/-- The commands of a program, one a line; a comment runs from `;` to the end of its line, and an empty line gives
nothing (R90). -/
def assembleLines : List (List Char) → Option (List Instr)
  | [] => some []
  | l :: ls =>
    let t := trimBlanks (l.takeWhile (fun c => c ≠ ';'))
    if t = [] then assembleLines ls
    else (assembleText t).bind (fun i => (assembleLines ls).map (fun is => i :: is))

/-- The commands of the text of a program. -/
def assemble (text : String) : Option (List Instr) := assembleLines (pieces '\n' text.toList)

/-- The words the assembler emits (R90). -/
def assembleWords (text : String) : Option (List Word) := (assemble text).map (fun is => is.flatMap encode)

end Sys2Proof.Machine
end

