-- ==== Sys2Proof/Machine/Run.lean ====
section
/-! DEFINITION. Runs (R258): the host and the engine together. The host sends words and takes words whenever it likes
(R60), the engine steps when it can, in any order. -/

namespace Sys2Proof.Machine

/-- What can happen next in a run (R51, R53, R60). Reset is not among them: it ends the run, and another begins. -/
inductive Event where
  /-- The host sends a word on the command channel. -/
  | send (w : Word)
  /-- The host takes the oldest word of the response channel. -/
  | take
  /-- The engine executes a command. -/
  | engine
  deriving DecidableEq, Repr

/-- A run so far: the state of the block, the words the host has sent and those it has taken, the oldest first, and how
many commands the engine has executed. All but the state is the run's history, not the block's (R258). -/
structure Run where
  state : State
  sent : List Word
  taken : List Word
  executed : Nat
  deriving DecidableEq, Repr

/-- The run that begins in the state `s`; a run of R258 begins in `State.reset`. -/
def Run.start (s : State) : Run := ⟨s, [], [], 0⟩

/-- The run after one event. There is none for taking a word that is not there, nor for the engine while it holds (R259)
or where the model declines (log 9). -/
def Run.next (e : Event) (r : Run) : Option Run :=
  match e with
  | .send w => some { r with state := hostSend w r.state, sent := r.sent ++ [w] }
  | .take => (hostTake r.state).map (fun p => { r with state := p.2, taken := r.taken ++ [p.1] })
  | .engine =>
    match step r.state with
    | .next t => some { r with state := t, executed := r.executed + 1 }
    | .fault _ => none
    | .refused _ => none

/-- The run after a list of events, if each can happen. -/
def Run.play : List Event → Run → Option Run
  | [], r => some r
  | e :: es, r => (Run.next e r).bind (Run.play es)

/-- The run of the list of commands `cs` has ended (R258): the host has sent their words, the engine has executed every
one of them, and the host has taken every response word. -/
def Run.Ended (cs : List Command) (r : Run) : Prop :=
  r.sent = cs.flatMap Command.words ∧ r.executed = cs.length ∧ r.state.rsp = []

/-- The run has ended well (R258): it has ended, and no fault is recorded. -/
def Run.EndedWell (cs : List Command) (r : Run) : Prop := r.Ended cs ∧ r.state.err = false

end Sys2Proof.Machine
end

