-- ==== Sys2Proof/Safety.lean ====
section
/-! DEFINITION. What claims about a run are stated in: the invariant of the state, what a fault leaves, and the
same outcome with other words in the channels. What an ended run is stands in Machine/Run.lean. -/

namespace Sys2Proof.Machine

/-- Every value in a valid register fits a register (R20, R22, R24). -/
def regsFit (s : State) : Bool :=
  s.regs.toList.all (fun o =>
    match o with
    | none => true
    | some v => fits v)

/-- The codes that `ERRCODE` can record (R221, R234). -/
def faultCodes : List (BitVec 4) := [1, 2, 5, 6, 7]

/-- The invariant of `STATUS` and `ERRCMD` (R32): with the latch clear nothing is recorded; with it set, the code of a
fault is. -/
def latchOk (s : State) : Bool :=
  if s.err then decide (s.errCode ∈ faultCodes)
  else decide (s.lost = false ∧ s.errCode = 0 ∧ s.errCmd = 0)

/-- The invariant of the state. -/
def State.Inv (s : State) : Prop := regsFit s = true ∧ latchOk s = true

/-- What is left when the command `i` raises the fault with code `c` (R226): the latch, the code, the command word and a
response of one word; everything else as it was. -/
def faulted (c : BitVec 4) (i : Instr) (s : State) : State :=
  { s with err := true, errCode := c, errCmd := encodeWord i, rsp := s.rsp ++ [BitVec.ofNat 32 c.toNat] }

/-- The same outcome with the command channel of its state, if it has one, set to `c`. -/
def withCmd (c : List Word) : Host.Outcome State Fault Refusal → Host.Outcome State Fault Refusal
  | .next t => .next { t with cmd := c }
  | .fault f => .fault f
  | .refused r => .refused r

/-- The same outcome with the words `q` in front of the response channel of its state, if it has one. -/
def behind (q : List Word) : Host.Outcome State Fault Refusal → Host.Outcome State Fault Refusal
  | .next t => .next { t with rsp := q ++ t.rsp }
  | .fault f => .fault f
  | .refused r => .refused r

end Sys2Proof.Machine
end

