-- ==== Sys2Proof/Certificates/Slice0/Obligations.lean ====
section
/-! DEFINITION. The statements for the provers. Each says which rule of spec/ it formalises. -/

open Sys2Proof Sys2Proof.Machine

/-! ### Encoding (30_encoding.md, 20_memory.md) -/

/-- R81, R85, R86: every command, at every value of every operand, is what the decoder reads from its own words, and the
cut takes exactly those words from the stream. -/
def Obligations.DecodeOfEncodeIsTheCommand : Prop :=
  ∀ (i : Instr) (rest : List Word), i.wellFormed = true →
    cut (encode i ++ rest) = .ready (encodeWord i) (payloadOf i) rest ∧ decode (encodeWord i) (payloadOf i) = .ok i

/-- R52, R86: a stream whose head decodes to a command begins with exactly the words the encoder gives for that command,
which is well formed: no bit of a legal command is dropped, and no two streams decode to one command. -/
def Obligations.DecodedStreamIsTheEncoding : Prop :=
  ∀ (ws rest : List Word) (w : Word) (p : Payload) (i : Instr), cut ws = .ready w p rest → decode w p = .ok i →
    i.wellFormed = true ∧ encodeWord i = w ∧ ws = encode i ++ rest

/-- R85, R86: the decoder, which reads fields, accepts a word exactly as the match and mask table does: an accepted word
fits the row of its mnemonic, a rejected word fits no row, unless two destination fields of a `DIV`, `EGCD` or `MRDEC`
are equal. -/
def Obligations.DecoderAgreesWithTheOpcodeTable : Prop :=
  ∀ (w : Word) (p : Payload),
    (∀ i, decode w p = .ok i → ∃ row ∈ opcodeTable, row.mnemonic = mnemonicOf i ∧ row.fits w = true) ∧
    (∀ e, decode w p = .error e → ∀ row ∈ opcodeTable, row.fits w = true →
      e = .equalDestinations ∧ row.mnemonic ∈ ["DIV", "EGCD", "MRDEC"])

/-- R85: the thirteen pairs of match and mask are pairwise disjoint. -/
def Obligations.OpcodeTableRowsAreDisjoint : Prop :=
  ∀ (w : Word), ∀ r₁ ∈ opcodeTable, ∀ r₂ ∈ opcodeTable, r₁.fits w = true → r₂.fits w = true → r₁ = r₂

/-- R92: worked words of the spec decode to the commands they stand for. -/
def Obligations.WorkedWordsDecode : Prop :=
  decode 0x02000001 .empty = .ok (.rdsr .status) ∧
  decode 0x1110FFFF .empty = .ok (.li 1 0xFFFF) ∧
  decode 0x12003000 .empty = .ok (.readout 3) ∧
  decode 0x21451200 .empty = .ok (.div 4 5 1 2) ∧
  decode 0x30341205 .empty = .ok (.egcd 3 4 5 1 2) ∧
  decode 0x40401230 .empty = .ok (.modexp 4 1 2 3) ∧
  decode 0x51504321 .empty = .ok (.mrw 5 4 3 2 1)

/-- R92: the fourteen worked encodings, from the assembler's text to the words. For `LDI`, whose row leaves the integer
open, the integer is 4294967296, the example of R110. -/
def Obligations.WorkedTextAssembles : Prop :=
  assembleWords "NOP" = some [0x00000000] ∧
  assembleWords "ACK" = some [0x01000000] ∧
  assembleWords "RDSR STATUS" = some [0x02000001] ∧
  assembleWords "LDI x1, #0x100000000" = some [0x10100000, 0x00000002, 0x00000000, 0x00000001] ∧
  assembleWords "LI x1, 240" = some [0x111000F0] ∧
  assembleWords "LI x1, −1" = some [0x1110FFFF] ∧
  assembleWords "RD x3" = some [0x12003000] ∧
  assembleWords "MUL x3, x1, x2" = some [0x20301200] ∧
  assembleWords "DIV x4, x5, x1, x2" = some [0x21451200] ∧
  assembleWords "EGCD x3, x4, x5, x1, x2" = some [0x30341205] ∧
  assembleWords "MODINV x3, x1, x2" = some [0x31301200] ∧
  assembleWords "MODEXP x4, x1, x2, x3" = some [0x40401230] ∧
  assembleWords "MRDEC x2, x3, x1" = some [0x50231000] ∧
  assembleWords "MRW x5, x4, x3, x2, x1" = some [0x51504321]

/-- R88: what makes a word `Illegal`, case by case: an opcode byte that is not assigned; a bit that must be zero; an index
of a system register above 3; two equal destination fields. The spec does not say which case a word of two cases is, and
all four fault alike: that a set bit comes before a reserved index and before equal destinations is the model's own
choice (log 17). -/
def Obligations.IllegalWordsAreTheFourCases : Prop :=
  ∀ (w : Word) (p : Payload),
    (decode w p = .error .reservedOpcode ↔
      opcodeByte w ∉ [0x00, 0x01, 0x02, 0x10, 0x11, 0x12, 0x20, 0x21, 0x30, 0x31, 0x40, 0x50, 0x51]) ∧
    (decode w p = .error .mustBeZero ↔
      (opcodeByte w ∈ [0x00, 0x01] ∧ field w 0 24 ≠ 0) ∨
      (opcodeByte w = 0x02 ∧ field w 4 20 ≠ 0) ∨
      (opcodeByte w = 0x10 ∧ field w 0 20 ≠ 0) ∨
      (opcodeByte w ∈ [0x11, 0x51] ∧ field w 16 4 ≠ 0) ∨
      (opcodeByte w = 0x12 ∧ (field w 16 8 ≠ 0 ∨ field w 0 12 ≠ 0)) ∨
      (opcodeByte w ∈ [0x20, 0x31] ∧ (field w 16 4 ≠ 0 ∨ field w 0 8 ≠ 0)) ∨
      (opcodeByte w = 0x21 ∧ field w 0 8 ≠ 0) ∨
      (opcodeByte w = 0x30 ∧ field w 4 4 ≠ 0) ∨
      (opcodeByte w = 0x40 ∧ (field w 16 4 ≠ 0 ∨ field w 0 4 ≠ 0)) ∨
      (opcodeByte w = 0x50 ∧ field w 0 12 ≠ 0)) ∧
    (decode w p = .error .reservedSysReg ↔ opcodeByte w = 0x02 ∧ field w 4 20 = 0 ∧ 4 ≤ field w 0 4) ∧
    (decode w p = .error .equalDestinations ↔
      (opcodeByte w = 0x21 ∧ field w 0 8 = 0 ∧ regField w 20 = regField w 16) ∨
      (opcodeByte w = 0x30 ∧ field w 4 4 = 0 ∧
        (regField w 20 = regField w 16 ∨ regField w 20 = regField w 0 ∨ regField w 16 = regField w 0)) ∨
      (opcodeByte w = 0x50 ∧ field w 0 12 = 0 ∧ regField w 20 = regField w 16))

/-- R52: the channel is first in, first out; a word whose opcode byte is not 0x10 is a whole command; one whose opcode
byte is 0x10 owns its header and as many limbs as the header says, whatever its other fields are. -/
def Obligations.CutDependsOnOpcodeAndHeaderOnly : Prop :=
  (∀ (w : Word) (s : State), hostSend w s = { s with cmd := s.cmd ++ [w] }) ∧
  (∀ (w : Word) (ws : List Word), opcodeByte w ≠ 0x10 → cut (w :: ws) = .ready w .empty ws) ∧
  (∀ (w h : Word) (ls rest : List Word), opcodeByte w = 0x10 → ls.length = headerCount h →
    cut (w :: h :: (ls ++ rest)) = .ready w ⟨headerSign h, ls⟩ rest)

/-! ### Steps of the engine (20_memory.md, 60_exceptions.md, 70_reset_and_hazards.md) -/

/-- R53: while the response queue is not full, a step takes the words of the command at the head of the command channel and
is `exec` of that command. -/
def Obligations.StepRunsTheDecodedCommand : Prop :=
  ∀ (s : State) (w : Word) (p : Payload) (rest : List Word) (i : Instr),
    cut s.cmd = .ready w p rest → rspFull s = false → decode w p = .ok i → step s = exec i { s with cmd := rest }

/-- R222, R226, R228: a word that decodes to `Illegal` faults `IllegalCommand` with the latch clear and is `Blocked` with
the latch set; either way its payload, if it owns one, is taken and discarded. -/
def Obligations.IllegalWordFaultsOrIsBlocked : Prop :=
  ∀ (s : State) (w : Word) (p : Payload) (rest : List Word) (e : Illegal),
    cut s.cmd = .ready w p rest → rspFull s = false → decode w p = .error e →
    (s.err = false → step s = .next { s with cmd := rest, err := true, errCode := 5, errCmd := w, rsp := s.rsp ++ [5] }) ∧
    (s.err = true → step s = .next { s with cmd := rest, lost := true, rsp := s.rsp ++ [8] })

/-- R59, R60, R242 and the two holds of 70_reset_and_hazards.md: the engine has no step exactly when the command channel
is empty, when it holds a command not all of whose words have arrived, or when a whole command is there and the response
queue is full; and whatever the host sends, a full response queue goes on holding the engine. The names of the three are
the model's (log 6). -/
def Obligations.StepHoldsExactlyInThreeSituations : Prop :=
  ∀ s : State,
    (step s = .fault .idle ↔ s.cmd = []) ∧
    (step s = .fault .incompleteCommand ↔
      ∃ w ws, s.cmd = w :: ws ∧ opcodeByte w = 0x10 ∧ (ws = [] ∨ ∃ h ls, ws = h :: ls ∧ ls.length < headerCount h)) ∧
    (step s = .fault .responseFull ↔
      Config.rspDepth ≤ s.rsp.length ∧ ∃ w p rest, cut s.cmd = .ready w p rest) ∧
    (∀ ws : List Word, step s = .fault .responseFull →
      step (ws.foldl (fun u w => hostSend w u) s) = .fault .responseFull)

/-- R66, R258, R59: however sending, taking and executing are interleaved, and whatever the depth of the response queue, an
ended run of a list of commands, legal or illegal, has left the state that `exec` folded over the list leaves, and the
host has taken the responses of the list, in order; and every list that `exec` can be folded over has a run that ends.
The form of a run, a list of events, is the model's (log 18). -/
def Obligations.RunIsExecFoldedOverTheCommands : Prop :=
  (∀ (cs : List Command) (s : State) (es : List Event) (r : Run), (∀ c ∈ cs, c.wellFormed = true) → s.cmd = [] →
    Run.play es (Run.start s) = some r → r.Ended cs →
    execAll cs s = .next { r.state with rsp := r.taken } ∧ r.state.cmd = [] ∧
      r.taken = s.rsp ++ (responsesOf cs s).flatten) ∧
  (∀ (cs : List Command) (s t : State), (∀ c ∈ cs, c.wellFormed = true) → s.cmd = [] → execAll cs s = .next t →
    ∃ es r, Run.play es (Run.start s) = some r ∧ r.Ended cs)

/-- R53, R59: what a command does depends on neither channel: the words waiting in the command channel stay, and the
words waiting in the response channel stay in front of the response. -/
def Obligations.ExecDependsOnNeitherChannel : Prop :=
  ∀ (i : Instr) (s : State) (c q : List Word),
    exec i { s with cmd := c, rsp := q ++ s.rsp } = withCmd c (behind q (exec i s))

/-! ### Reset, ports and invariants (10_state.md, 20_memory.md, 70_reset_and_hazards.md) -/

/-- R250, R51, R38: an edge with `rst_n` low leaves the reset state, from any state: no register is valid, the system
registers read as they do after reset, both channels are empty and the engine is idle, which the model says by the fault
`idle` (log 6). -/
def Obligations.ResetFromAnyState : Prop :=
  ∀ (l : PortLevels) (s : State), l.rstN = false →
    portCycle l s = State.reset ∧ (∀ r : Reg, State.reset.regs[r] = none) ∧
    State.reset.err = false ∧ State.reset.lost = false ∧ State.reset.errCode = 0 ∧ State.reset.errCmd = 0 ∧
    readSysReg .status State.reset = 0 ∧ readSysReg .errcmd State.reset = 0 ∧ readSysReg .id State.reset = 0x43303101 ∧
    readSysReg .cap State.reset = BitVec.ofNat 32 (0x10 * 2 ^ 24 + limitField Config.maxLimbs) ∧
    State.reset.cmd = [] ∧ State.reset.rsp = [] ∧ step State.reset = .fault .idle

/-- R51: with `rst_n` high, a word enters the command channel exactly when `cmd_valid` and `cmd_ready` are both 1, the
oldest response word leaves exactly when there is one and `rsp_ready` is 1, and nothing else changes. That `rsp_valid` is 1
whenever a response word is there, and that `cmd_ready` is given, is the model's own choice and not R51's (log 8). -/
def Obligations.PortCycleMovesWordsOnly : Prop :=
  ∀ (l : PortLevels) (s : State), l.rstN = true →
    portCycle l s =
      { s with cmd := s.cmd ++ (if l.cmdValid && l.cmdReady then [l.cmdData] else [])
               rsp := if l.rspReady then s.rsp.drop 1 else s.rsp }

/-- R32, R38: the reset state meets the invariant. -/
def Obligations.ResetMeetsTheInvariant : Prop := State.reset.Inv

/-- R20, R24, R32: from every state that meets the invariant (every register value fits; with the latch clear `LOST`,
`ERRCODE` and `ERRCMD` are zero, with it set `ERRCODE` is 1, 2, 5, 6 or 7) every step gives a state that meets it. -/
def Obligations.EveryStepKeepsTheInvariant : Prop :=
  ∀ s t : State, s.Inv → step s = .next t → t.Inv

/-- R20, R32: the host cannot break the invariant either. -/
def Obligations.EveryPortCycleKeepsTheInvariant : Prop :=
  ∀ (l : PortLevels) (s : State), s.Inv → (portCycle l s).Inv

/-! ### Faults and the error latch (60_exceptions.md) -/

/-- R57, R58, R221, R234: every step gives exactly one response: a status word whose code is 0, 1, 2, 5, 6, 7 or 8, and
payload words only after code 0 and only for `RD` and `RDSR`. It goes behind the words that wait, and the host takes the
oldest word first. -/
def Obligations.EveryStepGivesExactlyOneResponse : Prop :=
  (∀ s t : State, step s = .next t → ∃ (c : BitVec 4) (pl : List Word),
    t.rsp = s.rsp ++ BitVec.ofNat 32 c.toNat :: pl ∧ c ∈ [0, 1, 2, 5, 6, 7, 8] ∧ (pl ≠ [] → c = 0)) ∧
  (∀ (i : Instr) (s t : State), exec i s = .next t → (∀ r, i ≠ .readout r) → (∀ sr, i ≠ .rdsr sr) →
    ∃ c : BitVec 4, t.rsp = s.rsp ++ [BitVec.ofNat 32 c.toNat] ∧ c ∈ [0, 1, 2, 5, 6, 7, 8]) ∧
  (∀ (s : State) (w : Word) (ws : List Word), s.rsp = w :: ws → hostTake s = some (w, { s with rsp := ws }))

/-- R226: a step that sets the latch sets `ERR`, records the code of the fault and the command word, gives a one-word
response, and changes nothing else; the command's words have been taken. -/
def Obligations.FaultEntryChangesTheLatchOnly : Prop :=
  ∀ s t : State, s.err = false → step s = .next t → t.err = true →
    ∃ w p rest, cut s.cmd = .ready w p rest ∧ ∃ c ∈ faultCodes,
      t = { s with cmd := rest, err := true, errCode := c, errCmd := w, rsp := s.rsp ++ [BitVec.ofNat 32 c.toNat] }

/-- R228: with the latch set, every command but a well-formed `ACK` or `RDSR`, legal or illegal, is dropped: `LOST` is set,
the response is 8, its words (the payload of an `LDI` too) are taken, and nothing else changes. `ACK` and `RDSR` execute. -/
def Obligations.LatchedCommandsAreBlocked : Prop :=
  ∀ (s : State) (w : Word) (p : Payload) (rest : List Word), s.err = true → cut s.cmd = .ready w p rest →
    rspFull s = false →
    (w ≠ 0x01000000 → w ∉ [0x02000000, 0x02000001, 0x02000002, 0x02000003] →
      step s = .next { s with cmd := rest, lost := true, rsp := s.rsp ++ [8] }) ∧
    (w = 0x01000000 →
      step s = .next { s with cmd := rest, err := false, lost := false, errCode := 0, errCmd := 0, rsp := s.rsp ++ [0] }) ∧
    (∀ sr : SysReg, w = BitVec.ofNat 32 (0x02000000 + sysRegIndex sr) →
      step s = .next { s with cmd := rest, rsp := s.rsp ++ [0, readSysReg sr s] })

/-- R232, R228, and the sentence of 60_exceptions.md that "there is never more than one recorded fault", which the spec
derives: while the latch is set no step changes a register, the first fault's code and word stay, and the only step that
clears the latch is a well-formed `ACK`, after which the engine goes on with the command after it. -/
def Obligations.OnlyAckLeavesTheLatch : Prop :=
  ∀ s t : State, s.err = true → step s = .next t →
    t.regs = s.regs ∧
    ((t.err = true ∧ t.errCode = s.errCode ∧ t.errCmd = s.errCmd) ∨
      (t.err = false ∧ t.lost = false ∧ t.errCode = 0 ∧ t.errCmd = 0 ∧ s.cmd = 0x01000000 :: t.cmd))

/-- R23: no step clears a valid bit; only reset does. -/
def Obligations.NoStepClearsAValidBit : Prop :=
  ∀ (s t : State) (r : Reg), step s = .next t → s.regs[r] ≠ none → t.regs[r] ≠ none

/-- R223: a command one of whose source registers was never written faults `UninitRead`, whichever it is and whatever the
other operands are. -/
def Obligations.UninitialisedSourceFaults : Prop :=
  ∀ (i : Instr) (s : State), i.wellFormed = true → s.err = false → (∃ r ∈ i.sources, s.regs[r] = none) →
    exec i s = .next (faulted 6 i s)

/-- R224: each condition of the table of causes raises `InvalidArgument`. -/
def Obligations.InvalidArgumentCauses : Prop :=
  ∀ (s : State) (rd rd2 rd3 r₁ r₂ r₃ r₄ : Reg) (v₁ v₂ v₃ v₄ : Int), s.err = false →
    s.regs[r₁] = some v₁ → s.regs[r₂] = some v₂ → s.regs[r₃] = some v₃ → s.regs[r₄] = some v₄ →
    rd ≠ rd2 → rd ≠ rd3 → rd2 ≠ rd3 →
    (v₂ ≤ 0 ∨ v₁ < 0 → exec (.div rd rd2 r₁ r₂) s = .next (faulted 1 (.div rd rd2 r₁ r₂) s)) ∧
    (v₁ < 0 ∨ v₂ < 0 → exec (.egcd rd rd2 rd3 r₁ r₂) s = .next (faulted 1 (.egcd rd rd2 rd3 r₁ r₂) s)) ∧
    (v₁ < 0 ∨ v₂ < 1 → exec (.modinv rd r₁ r₂) s = .next (faulted 1 (.modinv rd r₁ r₂) s)) ∧
    (v₃ < 1 ∨ v₃ % 2 = 0 ∨ v₂ < 0 ∨ v₁ < 0 →
      exec (.modexp rd r₁ r₂ r₃) s = .next (faulted 1 (.modexp rd r₁ r₂ r₃) s)) ∧
    (v₁ < 2 → exec (.mrdec rd rd2 r₁) s = .next (faulted 1 (.mrdec rd rd2 r₁) s)) ∧
    (v₄ < 3 ∨ v₄ % 2 = 0 ∨ v₁ < 0 ∨ v₂ < 0 ∨ v₃ < 0 →
      exec (.mrw rd r₁ r₂ r₃ r₄) s = .next (faulted 1 (.mrw rd r₁ r₂ r₃ r₄) s))

/-- R225: `MODINV` with valid arguments whose gcd is not 1 faults `NoInverseExists`. -/
def Obligations.NoInverseFaults : Prop :=
  ∀ (s : State) (rd rs1 rs2 : Reg) (a m : Int), s.err = false → s.regs[rs1] = some a → s.regs[rs2] = some m →
    0 ≤ a → 1 ≤ m → Int.gcd a m ≠ 1 → exec (.modinv rd rs1 rs2) s = .next (faulted 2 (.modinv rd rs1 rs2) s)

/-- R258: a command executed with the latch clear leaves it clear exactly when its status word is 0, so that a claim 'no
command faulted' is a claim about the responses: if all status words of a list of commands are 0, the latch is clear
after it. -/
def Obligations.CleanExactlyWhenTheResponseIsOk : Prop :=
  (∀ (i : Instr) (s t : State), s.err = false → exec i s = .next t →
    (t.err = false ↔ ∃ pl, t.rsp = s.rsp ++ 0 :: pl)) ∧
  (∀ (cs : List Command) (s t : State), s.err = false → execAll cs s = .next t → allClean cs s = true → t.err = false)

/-- R227: from a state that meets the invariant only `LDI` and `MUL` raise `CapacityExceeded`, and only when `MAXLIMBS` is
finite. -/
def Obligations.OnlyLdiAndMulExceedCapacity : Prop :=
  ∀ (i : Instr) (s t : State), s.Inv → s.err = false → exec i s = .next t →
    t.errCode ≠ 7 ∨
      (Config.maxLimbs ≠ .unbounded ∧ ((∃ rd p, i = .ldi rd p) ∨ ∃ rd rs1 rs2, i = .mul rd rs1 rs2))

/-- R112, U22: a command never stops the machine, except that `RD` of a value of 2^31 - 1 limbs or more is refused, which
the invariant allows only when `MAXLIMBS = ∞`. -/
def Obligations.OnlyUncountableReadStops : Prop :=
  ∀ (i : Instr) (s : State),
    (∀ f, exec i s ≠ .fault f) ∧
    (∀ r, exec i s = .refused r →
      r = .readTooLong ∧ ∃ rs v, i = .readout rs ∧ s.regs[rs] = some v ∧ 2 ^ 31 - 1 ≤ limbCount v.natAbs ∧
        (¬ s.Inv ∨ Config.maxLimbs = .unbounded))

/-! ### What each command does when it completes -/

/-- R170. -/
def Obligations.NopOnlyResponds : Prop :=
  ∀ s : State, s.err = false → exec .nop s = .next { s with rsp := s.rsp ++ [0] }

/-- R171. -/
def Obligations.AckClearsTheLatch : Prop :=
  ∀ s : State, exec .ack s =
    .next { s with err := false, lost := false, errCode := 0, errCmd := 0, rsp := s.rsp ++ [0] }

/-- R172, R31, R33: `RDSR` answers the register's value, with the latch set or clear, and changes nothing else. -/
def Obligations.RdsrReadsTheSystemRegisters : Prop :=
  ∀ s : State,
    exec (.rdsr .id) s = .next { s with rsp := s.rsp ++ [0, 0x43303101] } ∧
    exec (.rdsr .status) s = .next { s with rsp := s.rsp ++ [0, statusWord s] } ∧
    exec (.rdsr .errcmd) s = .next { s with rsp := s.rsp ++ [0, s.errCmd] } ∧
    exec (.rdsr .cap) s = .next { s with rsp := s.rsp ++ [0, capWord] }

/-- R32: the layout of `STATUS`. -/
def Obligations.StatusLayout : Prop :=
  ∀ s : State, field (statusWord s) 0 1 = s.err.toNat ∧ field (statusWord s) 1 1 = s.lost.toNat ∧
    field (statusWord s) 2 2 = 0 ∧ field (statusWord s) 4 4 = s.errCode.toNat ∧ field (statusWord s) 8 24 = 0

/-- R34: the layout of `CAP`, for every value of the parameter. -/
def Obligations.CapLayout : Prop :=
  capWord = capWordOf Config.maxLimbs ∧
  ∀ m : Limit, field (capWordOf m) 24 8 = 16 ∧
    field (capWordOf m) 0 24 = (match m with | .unbounded => 0 | .limbs p => p.val + 1)

/-- R110: `LDI` loads the payload's value if the payload has no more limbs than a register, and faults otherwise. -/
def Obligations.LdiLoadsThePayload : Prop :=
  ∀ (s : State) (rd : Reg) (p : Payload), s.err = false →
    (Limit.admitsLimbs Config.maxLimbs p.limbs.length = true →
      exec (.ldi rd p) s = .next { s with regs := s.regs.set rd (some (payloadValue p)), rsp := s.rsp ++ [0] }) ∧
    (Limit.admitsLimbs Config.maxLimbs p.limbs.length = true ∨ exec (.ldi rd p) s = .next (faulted 7 (.ldi rd p) s))

/-- R111: `LI` loads the immediate, read as a two's complement number. -/
def Obligations.LiLoadsTheSignedImmediate : Prop :=
  ∀ (s : State) (rd : Reg) (imm : BitVec 16), s.err = false →
    exec (.li rd imm) s = .next
      { s with regs := s.regs.set rd (some (if imm.toNat < 2 ^ 15 then (imm.toNat : Int) else imm.toNat - 2 ^ 16))
               rsp := s.rsp ++ [0] }

/-- R112: `RD` answers header and limbs of the value, and changes nothing else. -/
def Obligations.RdAnswersTheCanonicalForm : Prop :=
  ∀ (s : State) (rs1 : Reg) (v : Int), s.err = false → s.regs[rs1] = some v → limbCount v.natAbs < 2 ^ 31 - 1 →
    exec (.readout rs1) s = .next
      { s with rsp := s.rsp ++ 0 :: headerWord (decide (v < 0)) (limbCount v.natAbs) ::
          (List.range (limbCount v.natAbs)).map (fun j => BitVec.ofNat 32 (v.natAbs / 2 ^ (32 * j))) }

/-- R120, R124: `MUL` writes the exact product if it fits, and faults otherwise, leaving `rd` as it was. -/
def Obligations.MulWritesTheProduct : Prop :=
  ∀ (s : State) (rd rs1 rs2 : Reg) (x y : Int), s.err = false → s.regs[rs1] = some x → s.regs[rs2] = some y →
    (Limit.admitsBits Config.maxLimbs (bitLength (x * y).natAbs) = true →
      exec (.mul rd rs1 rs2) s = .next { s with regs := s.regs.set rd (some (x * y)), rsp := s.rsp ++ [0] }) ∧
    (Limit.admitsBits Config.maxLimbs (bitLength (x * y).natAbs) = true ∨
      exec (.mul rd rs1 rs2) s = .next (faulted 7 (.mul rd rs1 rs2) s))

/-- R130, R132: `DIV` writes the unique quotient and remainder; every value of a valid register fits (the invariant). -/
def Obligations.DivWritesQuotientAndRemainder : Prop :=
  ∀ (s : State) (rd rd2 rs1 rs2 : Reg) (n d q r : Int), s.err = false → regsFit s = true → rd ≠ rd2 →
    s.regs[rs1] = some n → s.regs[rs2] = some d → 0 ≤ n → 0 < d → n = q * d + r → 0 ≤ r → r < d →
    exec (.div rd rd2 rs1 rs2) s = .next
      { s with regs := (s.regs.set rd (some q)).set rd2 (some r), rsp := s.rsp ++ [0] }

/-- R140, R142: `EGCD` writes the triple of the reference recursion; every value of a valid register fits. -/
def Obligations.EgcdWritesTheReferenceTriple : Prop :=
  ∀ (s : State) (rd rd2 rd3 rs1 rs2 : Reg) (a b : Nat), s.err = false → regsFit s = true →
    rd ≠ rd2 → rd ≠ rd3 → rd2 ≠ rd3 → s.regs[rs1] = some (a : Int) → s.regs[rs2] = some (b : Int) →
    exec (.egcd rd rd2 rd3 rs1 rs2) s = .next
      { s with regs := ((s.regs.set rd (some ((egcdRef a b).g : Int))).set rd2 (some (egcdRef a b).x)).set rd3
                 (some (egcdRef a b).y)
               rsp := s.rsp ++ [0] }

/-- R141: `MODINV` of coprime operands writes the inverse, the number in `[0, m)` whose product with `a` is 1 modulo `m`. -/
def Obligations.ModinvWritesTheInverse : Prop :=
  ∀ (s : State) (rd rs1 rs2 : Reg) (a m : Int), s.err = false → regsFit s = true →
    s.regs[rs1] = some a → s.regs[rs2] = some m → 0 ≤ a → 1 ≤ m → Int.gcd a m = 1 →
    ∃ v : Int, 0 ≤ v ∧ v < m ∧ a * v % m = 1 % m ∧
      exec (.modinv rd rs1 rs2) s = .next { s with regs := s.regs.set rd (some v), rsp := s.rsp ++ [0] }

/-- R150, R151: `MODEXP` writes the remainder of the exact power. -/
def Obligations.ModexpWritesThePower : Prop :=
  ∀ (s : State) (rd rs1 rs2 rs3 : Reg) (b e n : Nat), s.err = false → regsFit s = true →
    s.regs[rs1] = some (b : Int) → s.regs[rs2] = some (e : Int) → s.regs[rs3] = some (n : Int) → n % 2 = 1 →
    exec (.modexp rd rs1 rs2 rs3) s = .next
      { s with regs := s.regs.set rd (some ((b ^ e % n : Nat) : Int)), rsp := s.rsp ++ [0] }

/-- R160: `MRDEC` writes the unique odd `u` and the `r` with `n - 1 = u · 2^r`. -/
def Obligations.MrdecWritesTheDecomposition : Prop :=
  ∀ (s : State) (rd rd2 rs1 : Reg) (n u r : Nat), s.err = false → regsFit s = true → rd ≠ rd2 →
    s.regs[rs1] = some (n : Int) → 2 ≤ n → n - 1 = u * 2 ^ r → u % 2 = 1 →
    exec (.mrdec rd rd2 rs1) s = .next
      { s with regs := (s.regs.set rd (some (u : Int))).set rd2 (some (r : Int)), rsp := s.rsp ++ [0] }

/-- R161, R162 (its closed form): `MRW` writes 1 exactly when the first power is 1 or `n - 1`, or one of the `r - 1`
squarings after it gives `n - 1`, and 0 otherwise. -/
def Obligations.MrwWritesTheWitnessVerdict : Prop :=
  ∀ (s : State) (rd rs1 rs2 rs3 rs4 : Reg) (base r u n : Nat), s.err = false →
    s.regs[rs1] = some (base : Int) → s.regs[rs2] = some (r : Int) → s.regs[rs3] = some (u : Int) →
    s.regs[rs4] = some (n : Int) → 3 ≤ n → n % 2 = 1 →
    ∃ v : Int, (v = 0 ∨ v = 1) ∧
      (v = 1 ↔ base ^ u % n = 1 ∨ base ^ u % n = n - 1 ∨
        ∃ j, 1 ≤ j ∧ j ≤ r - 1 ∧ (base ^ u % n) ^ 2 ^ j % n = n - 1) ∧
      exec (.mrw rd rs1 rs2 rs3 rs4) s = .next { s with regs := s.regs.set rd (some v), rsp := s.rsp ++ [0] }

/-! ### Frames -/

/-- R25, R231: whatever a command does, a register that is not one of its destinations keeps its value and its valid bit,
the command channel keeps what waits in it, and the response channel only grows. -/
def Obligations.OnlyDestinationsAreWritten : Prop :=
  ∀ (i : Instr) (s t : State), exec i s = .next t →
    (∀ q : Reg, q ∉ i.dests → t.regs[q] = s.regs[q]) ∧ t.cmd = s.cmd ∧ s.rsp <+: t.rsp

/-- R27, R29: `STATUS` and `ERRCMD` change only by a fault (and then no register does), by `Blocked` and by `ACK`. -/
def Obligations.StatusChangesOnlyByFaultBlockedAck : Prop :=
  ∀ (i : Instr) (s t : State), exec i s = .next t →
    (t.err = s.err ∧ t.lost = s.lost ∧ t.errCode = s.errCode ∧ t.errCmd = s.errCmd) ∨
    (s.err = false ∧ ∃ c ∈ faultCodes, t = faulted c i s) ∨
    (s.err = true ∧ t = { s with lost := true, rsp := s.rsp ++ [8] }) ∨
    (i = .ack ∧ t = { s with err := false, lost := false, errCode := 0, errCmd := 0, rsp := s.rsp ++ [0] })

/-- R63, R170: `NOP`, `RD` and `RDSR`, when they do not fault and are not blocked, change nothing but the response
channel. -/
def Obligations.ReadsHaveNoSideEffect : Prop :=
  ∀ (i : Instr) (s t : State), (i = .nop ∨ (∃ rs, i = .readout rs) ∨ ∃ sr, i = .rdsr sr) → exec i s = .next t →
    t.err = s.err → t.lost = s.lost → ∃ q, t = { s with rsp := q }

/-! ### The arithmetic units -/

/-- R122: the Karatsuba recursion is the exact product for every threshold of at least 3. -/
def Obligations.KaratsubaIsTheExactProduct : Prop :=
  ∀ kbase x y : Nat, 3 ≤ kbase → kMul kbase x y = x * y

/-- R120, R123: magnitudes and the exclusive or of the signs give the product of signed operands, so the meaning of `MUL`
agrees with the unit's reference structure. -/
def Obligations.SignedKaratsubaIsTheProduct : Prop :=
  ∀ (kbase : Nat) (x y : Int), 3 ≤ kbase → kProduct kbase x y = x * y

/-- R131, R132: the bit-serial division gives quotient and remainder, the only pair that satisfies the contract. -/
def Obligations.BitSerialDivisionIsExact : Prop :=
  ∀ n d : Nat, 0 < d → divRef n d = (n / d, n % d) ∧ ∀ q r : Nat, n = q * d + r → r < d → divRef n d = (q, r)

/-- R142: the equations of the recursion; and the spec's derived sentence "`EgcdIter(a, b) = EgcdRef(a, b)` for all
`a, b ≥ 0`" about the iteration a hardware unit uses. -/
def Obligations.EgcdRecursionAndIterationAgree : Prop :=
  ∀ a b : Nat, egcdRef a 0 = ⟨a, 1, 0⟩ ∧
    (0 < b → egcdRef a b = ⟨(egcdRef b (a % b)).g, (egcdRef b (a % b)).y,
      (egcdRef b (a % b)).x - (a / b : Nat) * (egcdRef b (a % b)).y⟩) ∧
    egcdIter a b = egcdRef a b

/-- R143 in its first two points: the Bézout invariant, and what a swap of the operands does. -/
def Obligations.EgcdSatisfiesBezout : Prop :=
  ∀ a b : Nat, a * (egcdRef a b).x + b * (egcdRef a b).y = (egcdRef a b).g ∧ (egcdRef a b).g = Nat.gcd a b ∧
    (a < b → egcdRef a b = ⟨(egcdRef b a).g, (egcdRef b a).y, (egcdRef b a).x⟩)

/-- The spec's own inference ("the standard bound on Euclid's cofactors", in R143): the bound on the coefficients, from
which `EGCD` and `MODINV` never exceed a register. -/
def Obligations.EgcdCoefficientsAreBounded : Prop :=
  ∀ a b : Nat, 0 < (egcdRef a b).g →
    (egcdRef a b).x.natAbs ≤ max (b / (egcdRef a b).g) 1 ∧ (egcdRef a b).y.natAbs ≤ max (a / (egcdRef a b).g) 1

/-- R151: the equations of `ModPow`, and the laws of exponents the document relies on. -/
def Obligations.ModPowLaws : Prop :=
  ∀ b e n : Nat, 1 ≤ n →
    modPow b 0 n = 1 % n ∧ modPow b (e + 1) n = modPow b e n * b % n ∧ modPow b e n = b ^ e % n ∧
    ∀ f, modPow (modPow b e n) f n = modPow (modPow b f n) e n ∧ modPow (modPow b e n) f n = modPow b (e * f) n

/-- R152, R153: `REDC` divides by the radix modulo `n`. -/
def Obligations.RedcDividesByTheRadix : Prop :=
  ∀ k n nInv t : Nat, n % 2 = 1 → n < 2 ^ k → n * nInv % 2 ^ k = 2 ^ k - 1 → t < 2 ^ k * n →
    redc k n nInv t < n ∧ redc k n nInv t * 2 ^ k % n = t % n

/-- R153: binary exponentiation over Montgomery form gives the remainder of the exact power for every odd modulus. -/
def Obligations.MontgomeryExponentiationIsExact : Prop :=
  ∀ b e n : Nat, n % 2 = 1 → montExp b e n = b ^ e % n

/-- The spec's own general knowledge ("every base not divisible by `n` passes", 45_miller_rabin.md): for a prime `n` with
`n - 1 = u · 2^r` and `u` odd, every base not divisible by `n` passes, so a base that fails and is not divisible by `n`
proves compositeness. -/
def Obligations.PrimePassesEveryWitnessRound : Prop :=
  ∀ base r u n : Nat, Nat.Prime n → 3 ≤ n → n - 1 = u * 2 ^ r → u % 2 = 1 → ¬ n ∣ base →
    witnessRef base r u n = 1

/-! ### The serial form of an integer (20_memory.md, 40_data_movement.md) -/

/-- R54: a header gives sign and limb count, the limbs follow, and the value is the sum of the limbs, each at its weight,
with the sign of the header. -/
def Obligations.PayloadValueIsTheWeightedSum : Prop :=
  (∀ (w h : Word) (ls rest : List Word), opcodeByte w = 0x10 → ls.length = h.toNat % 2 ^ 31 →
    cut (w :: h :: (ls ++ rest)) = .ready w ⟨decide (2 ^ 31 ≤ h.toNat), ls⟩ rest) ∧
  (∀ p : Payload, payloadValue p =
    (if p.sign then -1 else 1) *
      ((List.range p.limbs.length).map (fun j => ((p.limbs.getD j 0).toNat * 2 ^ (32 * j) : Int))).sum)

/-- R55: the output form of a value has `ceil(bitLength / 32)` limbs, the value's own, no zero limb at the top, the sign
bit exactly for a negative value, the limb count in the header, and reads back as the value. -/
def Obligations.CanonicalFormReadsBack : Prop :=
  ∀ v : Int, (canonicalPayload v).limbs.length = (bitLength v.natAbs + 31) / 32 ∧
    (canonicalPayload v).limbs =
      (List.range (limbCount v.natAbs)).map (fun j => BitVec.ofNat 32 (v.natAbs / 2 ^ (32 * j))) ∧
    (canonicalPayload v).limbs.getLast? ≠ some 0 ∧ (canonicalPayload v).sign = decide (v < 0) ∧
    (limbCount v.natAbs < 2 ^ 31 → ∃ h : Word, payloadWords (canonicalPayload v) = h :: (canonicalPayload v).limbs ∧
      h.toNat = (if v < 0 then 2 ^ 31 else 0) + limbCount v.natAbs) ∧
    payloadValue (canonicalPayload v) = v

/-- R113: `LDI` with any payload that is loaded, then `RD` of the same register, answers the output form of the payload's
value; the output form of a value that fits is loaded, and its value is that value. -/
def Obligations.LoadThenReadRoundTrip : Prop :=
  (∀ (s : State) (k : Reg) (p : Payload), s.err = false → Limit.admitsLimbs Config.maxLimbs p.limbs.length = true →
    limbCount (payloadValue p).natAbs < 2 ^ 31 - 1 →
    ∃ t, exec (.ldi k p) s = .next t ∧
      exec (.readout k) t = .next { t with rsp := s.rsp ++ 0 :: 0 :: payloadWords (canonicalPayload (payloadValue p)) }) ∧
  (∀ v : Int, fits v = true →
    Limit.admitsLimbs Config.maxLimbs (canonicalPayload v).limbs.length = true ∧ payloadValue (canonicalPayload v) = v)
end

