-- ==== Sys2Proof/Laws/Capacity.lean ====
section
/-! SUPPORT. What fits a register: the short cut for one limb changes nothing (R9, R24), and smaller magnitudes fit
wherever larger ones do. -/

namespace Sys2Proof.Machine

theorem bitLength_le_iff (m k : Nat) : bitLength m ≤ k ↔ m < 2 ^ k := by
  unfold bitLength
  split
  · next h => subst h; simp
  · next h => exact (Nat.succ_le_iff.trans (Nat.log2_lt h))

theorem lt_two_pow_bitLength (m : Nat) : m < 2 ^ bitLength m := (bitLength_le_iff m _).mp le_rfl

theorem bitLength_mono {m n : Nat} (h : m ≤ n) : bitLength m ≤ bitLength n :=
  (bitLength_le_iff m _).mpr (h.trans_lt (lt_two_pow_bitLength n))

/-- The capacity test for limbs is `n ≤ MAXLIMBS` (R110). -/
theorem limbsFit_eq (n : Nat) : limbsFit n = Limit.admitsLimbs Config.maxLimbs n := by
  unfold limbsFit Limit.admitsLimbs
  cases Config.maxLimbs with
  | unbounded => simp
  | limbs p =>
    have : decide (n ≤ 1) = true → decide (n ≤ p.val + 1) = true := by simp; omega
    cases h : decide (n ≤ 1) <;> simp_all

/-- The capacity test for a value is `bitLength(|v|) ≤ MAXBITS` (R24). -/
theorem fits_eq (v : Int) : fits v = Limit.admitsBits Config.maxLimbs (bitLength v.natAbs) := by
  unfold fits Limit.admitsBits
  cases Config.maxLimbs with
  | unbounded => simp
  | limbs p =>
    have : decide (bitLength v.natAbs ≤ 32) = true → decide (bitLength v.natAbs ≤ 32 * (p.val + 1)) = true := by
      simp; omega
    cases h : decide (bitLength v.natAbs ≤ 32) <;> simp_all

theorem fits_mono {v w : Int} (h : v.natAbs ≤ w.natAbs) (hw : fits w = true) : fits v = true := by
  rw [fits_eq] at hw ⊢
  revert hw
  unfold Limit.admitsBits
  cases Config.maxLimbs with
  | unbounded => simp
  | limbs p =>
    have := bitLength_mono h
    simp only [decide_eq_true_eq]
    omega

/-- A value of one limb always fits. -/
theorem fits_of_lt {v : Int} (h : v.natAbs < 2 ^ 32) : fits v = true := by
  have : bitLength v.natAbs ≤ 32 := (bitLength_le_iff _ _).mpr h
  simp [fits, this]

theorem fits_sext16 (imm : BitVec 16) : fits (sext16 imm) = true := by
  apply fits_of_lt
  have := BitVec.toInt_lt (x := imm)
  have := BitVec.le_toInt (x := imm)
  unfold sext16
  omega

end Sys2Proof.Machine
end

