-- ==== Sys2Proof/Laws/Codec.lean ====
section
/-! SUPPORT. The fields of an encoded word, what `accept` can answer, and the decoder taken apart by the opcode byte. -/

namespace Sys2Proof

/-! ### Fields -/

theorem packR_toNat {op : Nat} (h : op < 256) (a b c d e f : Reg) :
    (packR op a b c d e f).toNat =
      op * 2 ^ 24 + a.val * 2 ^ 20 + b.val * 2 ^ 16 + c.val * 2 ^ 12 + d.val * 2 ^ 8 + e.val * 2 ^ 4 + f.val := by
  unfold packR
  rw [BitVec.toNat_ofNat]
  omega

theorem regField_val (w : Word) (lo : Nat) : (regField w lo).val = w.toNat / 2 ^ lo % 16 := rfl

theorem regField_packR {op : Nat} (h : op < 256) (a b c d e f : Reg) :
    regField (packR op a b c d e f) 20 = a ∧ regField (packR op a b c d e f) 16 = b ∧
    regField (packR op a b c d e f) 12 = c ∧ regField (packR op a b c d e f) 8 = d ∧
    regField (packR op a b c d e f) 4 = e ∧ regField (packR op a b c d e f) 0 = f := by
  simp only [Fin.ext_iff, regField_val, packR_toNat h]
  refine ⟨?_, ?_, ?_, ?_, ?_, ?_⟩ <;> omega

theorem opcodeByte_packR {op : Nat} (h : op < 256) (a b c d e f : Reg) : opcodeByte (packR op a b c d e f) = op := by
  simp only [opcodeByte, field, packR_toNat h]
  omega

theorem headerWord_fields (sign : Bool) {count : Nat} (h : count < 2 ^ 31) :
    headerSign (headerWord sign count) = sign ∧ headerCount (headerWord sign count) = count := by
  unfold headerSign headerCount headerWord field
  rw [BitVec.toNat_ofNat]
  cases sign <;> simp <;> omega

/-- A header is the word of its own sign and count. -/
theorem headerWord_of_fields (h : Word) : headerWord (headerSign h) (headerCount h) = h := by
  apply BitVec.eq_of_toNat_eq
  have := h.isLt
  unfold headerWord headerSign headerCount field
  rw [BitVec.toNat_ofNat]
  simp only [decide_eq_true_eq]
  split <;> omega

theorem headerCount_lt (h : Word) : headerCount h < 2 ^ 31 := Nat.mod_lt _ (by norm_num)

/-! ### The decoder -/

theorem accept_eq_ok {z : Bool} {i j : Instr} :
    accept z i = .ok j ↔ z = true ∧ distinctDests i = true ∧ i = j := by
  unfold accept
  cases z <;> cases distinctDests i <;> simp

theorem accept_eq_error {z : Bool} {i : Instr} {e : Illegal} :
    accept z i = .error e ↔
      (z = false ∧ e = .mustBeZero) ∨ (z = true ∧ distinctDests i = false ∧ e = .equalDestinations) := by
  unfold accept
  cases z <;> cases distinctDests i <;> simp [eq_comm]

/-- The thirteen opcode bytes of R84. -/
def opcodeBytes : List Nat :=
  [0x00, 0x01, 0x02, 0x10, 0x11, 0x12, 0x20, 0x21, 0x30, 0x31, 0x40, 0x50, 0x51]

/-- The decoder by the opcode byte. -/
theorem decode_cases (w : Word) (p : Payload) :
    (opcodeByte w = 0x00 ∧ decode w p = accept (field w 0 24 = 0) .nop) ∨
    (opcodeByte w = 0x01 ∧ decode w p = accept (field w 0 24 = 0) .ack) ∨
    (opcodeByte w = 0x02 ∧ decode w p = decodeRdsr w) ∨
    (opcodeByte w = 0x10 ∧ decode w p = accept (field w 0 20 = 0) (.ldi (regField w 20) p)) ∨
    (opcodeByte w = 0x11 ∧
      decode w p = accept (field w 16 4 = 0) (.li (regField w 20) (BitVec.ofNat 16 (field w 0 16)))) ∨
    (opcodeByte w = 0x12 ∧
      decode w p = accept (field w 16 8 = 0 && field w 0 12 = 0) (.readout (regField w 12))) ∨
    (opcodeByte w = 0x20 ∧ decode w p =
      accept (field w 16 4 = 0 && field w 0 8 = 0) (.mul (regField w 20) (regField w 12) (regField w 8))) ∨
    (opcodeByte w = 0x21 ∧ decode w p =
      accept (field w 0 8 = 0) (.div (regField w 20) (regField w 16) (regField w 12) (regField w 8))) ∨
    (opcodeByte w = 0x30 ∧ decode w p = accept (field w 4 4 = 0)
      (.egcd (regField w 20) (regField w 16) (regField w 0) (regField w 12) (regField w 8))) ∨
    (opcodeByte w = 0x31 ∧ decode w p =
      accept (field w 16 4 = 0 && field w 0 8 = 0) (.modinv (regField w 20) (regField w 12) (regField w 8))) ∨
    (opcodeByte w = 0x40 ∧ decode w p = accept (field w 16 4 = 0 && field w 0 4 = 0)
      (.modexp (regField w 20) (regField w 12) (regField w 8) (regField w 4))) ∨
    (opcodeByte w = 0x50 ∧ decode w p =
      accept (field w 0 12 = 0) (.mrdec (regField w 20) (regField w 16) (regField w 12))) ∨
    (opcodeByte w = 0x51 ∧ decode w p = accept (field w 16 4 = 0)
      (.mrw (regField w 20) (regField w 12) (regField w 8) (regField w 4) (regField w 0))) ∨
    (opcodeByte w ∉ opcodeBytes ∧ decode w p = .error .reservedOpcode) := by
  by_cases h : opcodeByte w ∈ opcodeBytes
  · simp only [opcodeBytes, List.mem_cons, List.not_mem_nil, or_false] at h
    rcases h with h | h | h | h | h | h | h | h | h | h | h | h | h <;> simp [decode, h]
  · have h' := h
    simp only [opcodeBytes, List.mem_cons, List.not_mem_nil, or_false, not_or] at h'
    simp [decode, h, h']

/-- A system register and its index. -/
theorem sysRegOf_eq_some {n : Nat} {sr : SysReg} : sysRegOf n = some sr ↔ n = sysRegIndex sr := by
  unfold sysRegOf
  split <;> cases sr <;> simp_all [sysRegIndex]

theorem sysRegOf_eq_none {n : Nat} : sysRegOf n = none ↔ 4 ≤ n := by
  match n with
  | 0 | 1 | 2 | 3 => simp [sysRegOf]
  | n + 4 => simp [sysRegOf]

theorem wellFormed_distinct {i : Instr} (h : i.wellFormed = true) : distinctDests i = true := by
  cases i <;> simp_all [Instr.wellFormed, distinctDests]

/-- Only `LDI` has an encoding longer than its word. -/
theorem encode_of_not_ldi {i : Instr} (h : ∀ rd p, i ≠ .ldi rd p) : encode i = [encodeWord i] ∧ payloadOf i = .empty := by
  cases i with
  | ldi rd p => exact absurd rfl (h rd p)
  | _ => exact ⟨rfl, rfl⟩

end Sys2Proof
end

