-- ==== Sys2Proof/Laws/State.lean ====
section
/-! SUPPORT. What each shared operation leaves in each field of the state: one lemma per field per operation, so that no
later proof unfolds a record update. -/

namespace Sys2Proof.Machine

@[simp] theorem writeReg_regs (r : Reg) (v : Int) (s : State) : (writeReg r v s).regs = s.regs.set r (some v) := rfl
@[simp] theorem writeReg_err (r : Reg) (v : Int) (s : State) : (writeReg r v s).err = s.err := rfl
@[simp] theorem writeReg_lost (r : Reg) (v : Int) (s : State) : (writeReg r v s).lost = s.lost := rfl
@[simp] theorem writeReg_errCode (r : Reg) (v : Int) (s : State) : (writeReg r v s).errCode = s.errCode := rfl
@[simp] theorem writeReg_errCmd (r : Reg) (v : Int) (s : State) : (writeReg r v s).errCmd = s.errCmd := rfl
@[simp] theorem writeReg_cmd (r : Reg) (v : Int) (s : State) : (writeReg r v s).cmd = s.cmd := rfl
@[simp] theorem writeReg_rsp (r : Reg) (v : Int) (s : State) : (writeReg r v s).rsp = s.rsp := rfl

@[simp] theorem respond_regs (c : BitVec 4) (ws : List Word) (s : State) : (respond c ws s).regs = s.regs := rfl
@[simp] theorem respond_err (c : BitVec 4) (ws : List Word) (s : State) : (respond c ws s).err = s.err := rfl
@[simp] theorem respond_lost (c : BitVec 4) (ws : List Word) (s : State) : (respond c ws s).lost = s.lost := rfl
@[simp] theorem respond_errCode (c : BitVec 4) (ws : List Word) (s : State) : (respond c ws s).errCode = s.errCode := rfl
@[simp] theorem respond_errCmd (c : BitVec 4) (ws : List Word) (s : State) : (respond c ws s).errCmd = s.errCmd := rfl
@[simp] theorem respond_cmd (c : BitVec 4) (ws : List Word) (s : State) : (respond c ws s).cmd = s.cmd := rfl
@[simp] theorem respond_rsp (c : BitVec 4) (ws : List Word) (s : State) : (respond c ws s).rsp = s.rsp ++ BitVec.ofNat 32 c.toNat :: ws := rfl

@[simp] theorem takeFault_regs (e : CmdFault) (w : Word) (s : State) : (takeFault e w s).regs = s.regs := rfl
@[simp] theorem takeFault_err (e : CmdFault) (w : Word) (s : State) : (takeFault e w s).err = true := rfl
@[simp] theorem takeFault_lost (e : CmdFault) (w : Word) (s : State) : (takeFault e w s).lost = s.lost := rfl
@[simp] theorem takeFault_errCode (e : CmdFault) (w : Word) (s : State) : (takeFault e w s).errCode = faultCode e := rfl
@[simp] theorem takeFault_errCmd (e : CmdFault) (w : Word) (s : State) : (takeFault e w s).errCmd = w := rfl
@[simp] theorem takeFault_cmd (e : CmdFault) (w : Word) (s : State) : (takeFault e w s).cmd = s.cmd := rfl
@[simp] theorem takeFault_rsp (e : CmdFault) (w : Word) (s : State) : (takeFault e w s).rsp = s.rsp ++ [BitVec.ofNat 32 (faultCode e).toNat] := rfl

@[simp] theorem dropBlocked_regs (s : State) : (dropBlocked s).regs = s.regs := rfl
@[simp] theorem dropBlocked_err (s : State) : (dropBlocked s).err = s.err := rfl
@[simp] theorem dropBlocked_lost (s : State) : (dropBlocked s).lost = true := rfl
@[simp] theorem dropBlocked_errCode (s : State) : (dropBlocked s).errCode = s.errCode := rfl
@[simp] theorem dropBlocked_errCmd (s : State) : (dropBlocked s).errCmd = s.errCmd := rfl
@[simp] theorem dropBlocked_cmd (s : State) : (dropBlocked s).cmd = s.cmd := rfl
@[simp] theorem dropBlocked_rsp (s : State) : (dropBlocked s).rsp = s.rsp ++ [BitVec.ofNat 32 blockedCode.toNat] := rfl

@[simp] theorem acknowledge_regs (s : State) : (acknowledge s).regs = s.regs := rfl
@[simp] theorem acknowledge_err (s : State) : (acknowledge s).err = false := rfl
@[simp] theorem acknowledge_lost (s : State) : (acknowledge s).lost = false := rfl
@[simp] theorem acknowledge_errCode (s : State) : (acknowledge s).errCode = 0 := rfl
@[simp] theorem acknowledge_errCmd (s : State) : (acknowledge s).errCmd = 0 := rfl
@[simp] theorem acknowledge_cmd (s : State) : (acknowledge s).cmd = s.cmd := rfl
@[simp] theorem acknowledge_rsp (s : State) : (acknowledge s).rsp = s.rsp ++ [BitVec.ofNat 32 okCode.toNat] := rfl

@[simp] theorem consume_regs (rest : List Word) (s : State) : (consume rest s).regs = s.regs := rfl
@[simp] theorem consume_err (rest : List Word) (s : State) : (consume rest s).err = s.err := rfl
@[simp] theorem consume_lost (rest : List Word) (s : State) : (consume rest s).lost = s.lost := rfl
@[simp] theorem consume_errCode (rest : List Word) (s : State) : (consume rest s).errCode = s.errCode := rfl
@[simp] theorem consume_errCmd (rest : List Word) (s : State) : (consume rest s).errCmd = s.errCmd := rfl
@[simp] theorem consume_cmd (rest : List Word) (s : State) : (consume rest s).cmd = rest := rfl
@[simp] theorem consume_rsp (rest : List Word) (s : State) : (consume rest s).rsp = s.rsp := rfl

@[simp] theorem placeInstr_regs (n w : Nat) (s : State) : (placeInstr n w s).regs = s.regs := rfl
@[simp] theorem placeInstr_err (n w : Nat) (s : State) : (placeInstr n w s).err = s.err := rfl
@[simp] theorem placeInstr_lost (n w : Nat) (s : State) : (placeInstr n w s).lost = s.lost := rfl
@[simp] theorem placeInstr_errCode (n w : Nat) (s : State) : (placeInstr n w s).errCode = s.errCode := rfl
@[simp] theorem placeInstr_errCmd (n w : Nat) (s : State) : (placeInstr n w s).errCmd = s.errCmd := rfl
@[simp] theorem placeInstr_cmd (n w : Nat) (s : State) : (placeInstr n w s).cmd = tableWords n w ++ s.cmd := rfl
@[simp] theorem placeInstr_rsp (n w : Nat) (s : State) : (placeInstr n w s).rsp = if rspFull s then [] else s.rsp := rfl

@[simp] theorem hostSend_regs (w : Word) (s : State) : (hostSend w s).regs = s.regs := rfl
@[simp] theorem hostSend_err (w : Word) (s : State) : (hostSend w s).err = s.err := rfl
@[simp] theorem hostSend_lost (w : Word) (s : State) : (hostSend w s).lost = s.lost := rfl
@[simp] theorem hostSend_errCode (w : Word) (s : State) : (hostSend w s).errCode = s.errCode := rfl
@[simp] theorem hostSend_errCmd (w : Word) (s : State) : (hostSend w s).errCmd = s.errCmd := rfl
@[simp] theorem hostSend_cmd (w : Word) (s : State) : (hostSend w s).cmd = s.cmd ++ [w] := rfl
@[simp] theorem hostSend_rsp (w : Word) (s : State) : (hostSend w s).rsp = s.rsp := rfl

end Sys2Proof.Machine
end

