-- ==== Sys2Proof/Laws/Ops.lean ====
section
/-! SUPPORT. What each shared operation can do, said once: register reads and writes, the end of a command, the frame,
and the shape of every meaning. -/

namespace Sys2Proof.Machine

/-! ### Register reads and writes -/

theorem readReg_ok {r : Reg} {s : State} {v : Int} (h : s.regs[r] = some v) : readReg r s = .ok v := by
  simp only [readReg, h]

theorem readReg_uninit {r : Reg} {s : State} (h : s.regs[r] = none) : readReg r s = .error .uninitRead := by
  simp only [readReg, h]

theorem readReg_cases (r : Reg) (s : State) :
    (∃ v, s.regs[r] = some v ∧ readReg r s = .ok v) ∨ (s.regs[r] = none ∧ readReg r s = .error .uninitRead) := by
  cases h : s.regs[r] with
  | none => exact .inr ⟨rfl, readReg_uninit h⟩
  | some v => exact .inl ⟨v, rfl, readReg_ok h⟩

@[simp] theorem requireArg_true : requireArg true = .ok () := rfl
@[simp] theorem requireArg_false : requireArg false = .error .invalidArgument := rfl

theorem set_same (regs : Vector (Option Int) 16) (r : Reg) (v : Option Int) : (regs.set r v)[r] = v := by
  simp

theorem set_other (regs : Vector (Option Int) 16) {r q : Reg} (v : Option Int) (h : q ≠ r) :
    (regs.set r v)[q] = regs[q] := by
  have : r.val ≠ q.val := fun e => h (Fin.ext e.symm)
  simp [this]

/-- A write touches no field but the registers, and none of those but its destinations. -/
theorem writeAll_spec (ws : List (Reg × Int)) (s : State) :
    (∃ regs, writeAll ws s = { s with regs := regs }) ∧
      ∀ q : Reg, q ∉ ws.map Prod.fst → (writeAll ws s).regs[q] = s.regs[q] := by
  induction ws generalizing s with
  | nil => exact ⟨⟨s.regs, rfl⟩, fun _ _ => rfl⟩
  | cons p ws ih =>
    obtain ⟨⟨regs, hr⟩, hq⟩ := ih (writeReg p.1 p.2 s)
    refine ⟨⟨regs, hr⟩, fun q hmem => ?_⟩
    simp only [List.map_cons, List.mem_cons, not_or] at hmem
    exact (hq q hmem.2).trans (set_other _ _ hmem.1)

theorem writeAll_regs_other {ws : List (Reg × Int)} {s : State} {q : Reg} (h : q ∉ ws.map Prod.fst) :
    (writeAll ws s).regs[q] = s.regs[q] := (writeAll_spec ws s).2 q h

@[simp] theorem writeAll_err (ws : List (Reg × Int)) (s : State) : (writeAll ws s).err = s.err := by
  obtain ⟨⟨regs, h⟩, -⟩ := writeAll_spec ws s; rw [h]
@[simp] theorem writeAll_lost (ws : List (Reg × Int)) (s : State) : (writeAll ws s).lost = s.lost := by
  obtain ⟨⟨regs, h⟩, -⟩ := writeAll_spec ws s; rw [h]
@[simp] theorem writeAll_errCode (ws : List (Reg × Int)) (s : State) : (writeAll ws s).errCode = s.errCode := by
  obtain ⟨⟨regs, h⟩, -⟩ := writeAll_spec ws s; rw [h]
@[simp] theorem writeAll_errCmd (ws : List (Reg × Int)) (s : State) : (writeAll ws s).errCmd = s.errCmd := by
  obtain ⟨⟨regs, h⟩, -⟩ := writeAll_spec ws s; rw [h]
@[simp] theorem writeAll_cmd (ws : List (Reg × Int)) (s : State) : (writeAll ws s).cmd = s.cmd := by
  obtain ⟨⟨regs, h⟩, -⟩ := writeAll_spec ws s; rw [h]
@[simp] theorem writeAll_rsp (ws : List (Reg × Int)) (s : State) : (writeAll ws s).rsp = s.rsp := by
  obtain ⟨⟨regs, h⟩, -⟩ := writeAll_spec ws s; rw [h]

/-! ### The end of a command and the frame -/

/-- How the frame ends (R229): dropped, a fault taken, or all destinations written. -/
theorem runCommand_cases (i : Instr) (r : Except CmdFault Result) (s : State) :
    (s.err = true ∧ runCommand i r s = dropBlocked s) ∨
    (s.err = false ∧ ∃ e, runCommand i r s = takeFault e (encodeWord i) s ∧
      ((distinctDests i = false ∧ e = .illegalCommand) ∨ (distinctDests i = true ∧ r = .error e) ∨
        (distinctDests i = true ∧ e = .capacityExceeded ∧ ∃ res, r = .ok res ∧ ¬ ∀ p ∈ res.writes, fits p.2 = true))) ∨
    (s.err = false ∧ distinctDests i = true ∧ ∃ res, r = .ok res ∧ (∀ p ∈ res.writes, fits p.2 = true) ∧
      runCommand i r s = respond okCode res.payload (writeAll res.writes s)) := by
  unfold runCommand
  cases he : s.err with
  | true => exact .inl ⟨rfl, rfl⟩
  | false =>
    cases hd : distinctDests i with
    | false => exact .inr (.inl ⟨rfl, .illegalCommand, rfl, .inl ⟨rfl, rfl⟩⟩)
    | true =>
      cases r with
      | error e => exact .inr (.inl ⟨rfl, e, rfl, .inr (.inl ⟨rfl, rfl⟩)⟩)
      | ok res =>
        by_cases hf : ∀ p ∈ res.writes, fits p.2 = true
        · exact .inr (.inr ⟨rfl, rfl, res, rfl, hf, by simp [finish, List.all_eq_true.mpr hf]⟩)
        · refine .inr (.inl ⟨rfl, .capacityExceeded, ?_, .inr (.inr ⟨rfl, rfl, res, rfl, hf⟩)⟩)
          have : res.writes.all (fun p => fits p.2) = false := by
            rw [Bool.eq_false_iff]; exact fun h => hf (List.all_eq_true.mp h)
          simp [finish, this]

theorem runCommand_blocked {i : Instr} {r : Except CmdFault Result} {s : State} (h : s.err = true) :
    runCommand i r s = dropBlocked s := by simp [runCommand, h]

theorem runCommand_fault {i : Instr} {e : CmdFault} {s : State} (h : s.err = false) (hd : distinctDests i = true) :
    runCommand i (.error e) s = takeFault e (encodeWord i) s := by simp [runCommand, finish, h, hd]

theorem runCommand_ok {i : Instr} {res : Result} {s : State} (h : s.err = false) (hd : distinctDests i = true)
    (hf : ∀ p ∈ res.writes, fits p.2 = true) :
    runCommand i (.ok res) s = respond okCode res.payload (writeAll res.writes s) := by
  simp [runCommand, finish, h, hd, List.all_eq_true.mpr hf]

/-! ### The shape of every meaning -/

/-- What the steps 3 to 6 of R229 may hand to the frame for the command `i`: writes to exactly its destinations, a
payload for `RD` alone, and never the two faults that the frame itself raises first. -/
def Shaped (i : Instr) (r : Except CmdFault Result) : Prop :=
  (∀ res, r = .ok res → res.writes.map Prod.fst = i.dests ∧ (res.payload = [] ∨ ∃ rs, i = .readout rs)) ∧
    r ≠ .error .illegalCommand

theorem shaped_ok {i : Instr} {ws : List (Reg × Int)} {pl : List Word} (hw : ws.map Prod.fst = i.dests)
    (hp : pl = [] ∨ ∃ rs, i = .readout rs) : Shaped i (.ok ⟨ws, pl⟩) :=
  ⟨fun _ h => by cases h; exact ⟨hw, hp⟩, by simp⟩

theorem shaped_error {i : Instr} {e : CmdFault} (h : e ≠ .illegalCommand) : Shaped i (.error e) :=
  ⟨fun _ h => by (cases h), by simpa using h⟩

theorem shaped_read {i : Instr} {r : Reg} {s : State} {k : Int → Except CmdFault Result}
    (h : ∀ v, Shaped i (k v)) : Shaped i (readReg r s >>= k) := by
  obtain ⟨v, -, hv⟩ | ⟨-, hv⟩ := readReg_cases r s <;> rw [hv]
  · exact h v
  · exact shaped_error (by decide)

theorem shaped_require {i : Instr} {c : Bool} {k : Unit → Except CmdFault Result}
    (h : Shaped i (k ())) : Shaped i (requireArg c >>= k) := by
  cases c
  · exact shaped_error (by decide)
  · exact h

/-- Every meaning is one of these: `ACK`, `RDSR`, the refusal of an over-long `RD`, or the frame around a shaped result. -/
theorem exec_shape (i : Instr) (s : State) :
    (i = .ack ∧ exec i s = .next (acknowledge s)) ∨
    (∃ sr, i = .rdsr sr ∧ exec i s = .next (respond okCode [readSysReg sr s] s)) ∨
    (∃ rs, i = .readout rs ∧ s.err = false ∧ readTooLong rs s = true ∧ exec i s = .refused .readTooLong) ∨
    (i ≠ .ack ∧ (∀ sr, i ≠ .rdsr sr) ∧ ∃ r, Shaped i r ∧ exec i s = .next (runCommand i r s)) := by
  cases i with
  | ack => exact .inl ⟨rfl, rfl⟩
  | rdsr sr => exact .inr (.inl ⟨sr, rfl, rfl⟩)
  | readout rs =>
    by_cases h : s.err = false ∧ readTooLong rs s = true
    · exact .inr (.inr (.inl ⟨rs, rfl, h.1, h.2, by simp [exec, execRd, h]⟩))
    · have hx : exec (.readout rs) s = .next (runCommand (.readout rs)
          (readReg rs s >>= fun v => .ok ⟨[], payloadWords (canonicalPayload v)⟩) s) := by
        simp only [exec, execRd]
        rw [if_neg]
        simpa using h
      exact .inr (.inr (.inr ⟨by simp, by simp, _, shaped_read fun v => shaped_ok rfl (.inr ⟨rs, rfl⟩), hx⟩))
  | nop => exact .inr (.inr (.inr ⟨by simp, by simp, _, shaped_ok rfl (.inl rfl), rfl⟩))
  | ldi rd p =>
    refine .inr (.inr (.inr ⟨by simp, by simp, _, ?_, rfl⟩))
    split
    · exact shaped_ok rfl (.inl rfl)
    · exact shaped_error (by decide)
  | li rd imm => exact .inr (.inr (.inr ⟨by simp, by simp, _, shaped_ok rfl (.inl rfl), rfl⟩))
  | mul rd rs1 rs2 =>
    exact .inr (.inr (.inr ⟨by simp, by simp, _,
      shaped_read fun x => shaped_read fun y => shaped_ok rfl (.inl rfl), rfl⟩))
  | div rd rd2 rs1 rs2 =>
    exact .inr (.inr (.inr ⟨by simp, by simp, _,
      shaped_read fun x => shaped_read fun y => shaped_require (shaped_ok rfl (.inl rfl)), rfl⟩))
  | egcd rd rd2 rd3 rs1 rs2 =>
    exact .inr (.inr (.inr ⟨by simp, by simp, _,
      shaped_read fun x => shaped_read fun y => shaped_require (shaped_ok rfl (.inl rfl)), rfl⟩))
  | modinv rd rs1 rs2 =>
    refine .inr (.inr (.inr ⟨by simp, by simp, _,
      shaped_read fun a => shaped_read fun m => shaped_require ?_, rfl⟩))
    unfold modInverse
    dsimp only
    split
    · exact shaped_ok rfl (.inl rfl)
    · exact shaped_error (by decide)
  | modexp rd rs1 rs2 rs3 =>
    exact .inr (.inr (.inr ⟨by simp, by simp, _,
      shaped_read fun b => shaped_read fun e => shaped_read fun n => shaped_require (shaped_ok rfl (.inl rfl)), rfl⟩))
  | mrdec rd rd2 rs1 =>
    exact .inr (.inr (.inr ⟨by simp, by simp, _,
      shaped_read fun n => shaped_require (shaped_ok rfl (.inl rfl)), rfl⟩))
  | mrw rd rs1 rs2 rs3 rs4 =>
    exact .inr (.inr (.inr ⟨by simp, by simp, _,
      shaped_read fun b => shaped_read fun r => shaped_read fun u => shaped_read fun n =>
        shaped_require (shaped_ok rfl (.inl rfl)), rfl⟩))

end Sys2Proof.Machine
end

