-- ==== Sys2Proof/Laws/PerInstr.lean ====
section
/-! SUPPORT. One fact for every command, by constructor: its encoding begins with the opcode byte that R84 gives it, and
is one word long, or for `LDI` two words and its limbs (R52, R80). -/

namespace Sys2Proof.Laws.EncodingHead

/-- The opcode byte of a command (R84). -/
def opcodeOf : Instr → Nat
  | .nop => 0x00
  | .ack => 0x01
  | .rdsr _ => 0x02
  | .ldi _ _ => 0x10
  | .li _ _ => 0x11
  | .readout _ => 0x12
  | .mul _ _ _ => 0x20
  | .div _ _ _ _ => 0x21
  | .egcd _ _ _ _ _ => 0x30
  | .modinv _ _ _ => 0x31
  | .modexp _ _ _ _ => 0x40
  | .mrdec _ _ _ => 0x50
  | .mrw _ _ _ _ _ => 0x51

/-- The number of words of a command (R52, R80). -/
def wordCount : Instr → Nat
  | .ldi _ p => 2 + p.limbs.length
  | .nop | .ack | .rdsr _ | .li _ _ | .readout _ | .mul _ _ _ | .div _ _ _ _ | .egcd _ _ _ _ _ | .modinv _ _ _
  | .modexp _ _ _ _ | .mrdec _ _ _ | .mrw _ _ _ _ _ => 1

def Statement (i : Instr) : Prop := opcodeByte (encodeWord i) = opcodeOf i ∧ (encode i).length = wordCount i

theorem nop : Statement .nop := ⟨by decide, rfl⟩
theorem ack : Statement .ack := ⟨by decide, rfl⟩
theorem rdsr (sr : SysReg) : Statement (.rdsr sr) := by cases sr <;> exact ⟨by decide, rfl⟩
theorem ldi (rd : Reg) (p : Payload) : Statement (.ldi rd p) := by
  refine ⟨opcodeByte_packR (by decide) .., ?_⟩
  simp only [encode, payloadWords, wordCount, List.length_cons]
  omega
theorem li (rd : Reg) (imm : BitVec 16) : Statement (.li rd imm) := by
  refine ⟨?_, rfl⟩
  simp only [opcodeByte, field, encodeWord, opcodeOf, BitVec.toNat_ofNat]
  omega
theorem readout (rs1 : Reg) : Statement (.readout rs1) := ⟨opcodeByte_packR (by decide) .., rfl⟩
theorem mul (rd rs1 rs2 : Reg) : Statement (.mul rd rs1 rs2) := ⟨opcodeByte_packR (by decide) .., rfl⟩
theorem div (rd rd2 rs1 rs2 : Reg) : Statement (.div rd rd2 rs1 rs2) := ⟨opcodeByte_packR (by decide) .., rfl⟩
theorem egcd (rd rd2 rd3 rs1 rs2 : Reg) : Statement (.egcd rd rd2 rd3 rs1 rs2) :=
  ⟨opcodeByte_packR (by decide) .., rfl⟩
theorem modinv (rd rs1 rs2 : Reg) : Statement (.modinv rd rs1 rs2) := ⟨opcodeByte_packR (by decide) .., rfl⟩
theorem modexp (rd rs1 rs2 rs3 : Reg) : Statement (.modexp rd rs1 rs2 rs3) := ⟨opcodeByte_packR (by decide) .., rfl⟩
theorem mrdec (rd rd2 rs1 : Reg) : Statement (.mrdec rd rd2 rs1) := ⟨opcodeByte_packR (by decide) .., rfl⟩
theorem mrw (rd rs1 rs2 rs3 rs4 : Reg) : Statement (.mrw rd rs1 rs2 rs3 rs4) := ⟨opcodeByte_packR (by decide) .., rfl⟩

end Sys2Proof.Laws.EncodingHead

namespace Sys2Proof

open Laws.EncodingHead in
/-- The words of a legal command as the host issues it are those the encoder gives (R52). -/
theorem command_words (i : Instr) : i.command.words = encode i := by
  have h : opcodeByte (encodeWord i) = opcodeOf i := by
    cases i
    exacts [nop.1, ack.1, (rdsr _).1, (ldi _ _).1, (li _ _).1, (readout _).1, (mul _ _ _).1, (div _ _ _ _).1,
      (egcd _ _ _ _ _).1, (modinv _ _ _).1, (modexp _ _ _ _).1, (mrdec _ _ _).1, (mrw _ _ _ _ _).1]
  cases i <;> simp [Command.words, Instr.command, encode, payloadOf, h, opcodeOf]

end Sys2Proof
end

