-- ==== Sys2Proof/Laws/Step.lean ====
section
/-! SUPPORT. What a step can do, said once, and small facts about the invariant and about runs. -/

namespace Sys2Proof.Machine

/-- The test for a full response queue is `depth ≤ length` (R59). -/
theorem rspFull_iff (s : State) : rspFull s = true ↔ Config.rspDepth ≤ s.rsp.length := by
  unfold rspFull Config.rspDepth
  cases s.rsp <;> simp

theorem rspFull_of_nil {s : State} (h : s.rsp = []) : rspFull s = false := by simp [rspFull, h]

/-- Everything a command can do: execute as what it decodes to, or as a word that decodes to `Illegal`. -/
theorem execCommand_cases (c : Command) (s : State) :
    (∃ i, decode c.word c.payload = .ok i ∧ execCommand c s = exec i s) ∨
    (∃ e, decode c.word c.payload = .error e ∧ execCommand c s = .next (execIllegal c.word s)) := by
  unfold execCommand
  cases hd : decode c.word c.payload with
  | ok i => exact .inl ⟨i, rfl, rfl⟩
  | error e => exact .inr ⟨e, rfl, rfl⟩

/-- Everything a step can do: wait without a command, wait in the middle of one, hold on a full response queue, or
execute the command at the head of the channel. -/
theorem step_cases (s : State) :
    (cut s.cmd = .idle ∧ step s = .fault .idle) ∨
    (cut s.cmd = .incomplete ∧ step s = .fault .incompleteCommand) ∨
    ∃ w p rest, cut s.cmd = .ready w p rest ∧
      ((rspFull s = true ∧ step s = .fault .responseFull) ∨
        (rspFull s = false ∧ step s = execCommand ⟨w, p⟩ (consume rest s))) := by
  unfold step fetch
  cases hc : cut s.cmd with
  | idle => exact .inl ⟨rfl, rfl⟩
  | incomplete => exact .inr (.inl ⟨rfl, rfl⟩)
  | ready w p rest =>
    refine .inr (.inr ⟨w, p, rest, rfl, ?_⟩)
    cases hf : rspFull s with
    | true => exact .inl ⟨rfl, rfl⟩
    | false => exact .inr ⟨rfl, rfl⟩

/-- A step that gives a next state has executed the command at the head of the channel. -/
theorem step_next {s t : State} (h : step s = .next t) :
    ∃ w p rest, cut s.cmd = .ready w p rest ∧ rspFull s = false ∧ execCommand ⟨w, p⟩ (consume rest s) = .next t := by
  obtain ⟨-, h'⟩ | ⟨-, h'⟩ | ⟨w, p, rest, hc, ⟨-, h'⟩ | ⟨hf, h'⟩⟩ := step_cases s <;> rw [h'] at h
  · simp at h
  · simp at h
  · simp at h
  · exact ⟨w, p, rest, hc, hf, h⟩

/-- A value fits in every valid register. -/
theorem regsFit_iff (s : State) : regsFit s = true ↔ ∀ (r : Reg) (v : Int), s.regs[r] = some v → fits v = true := by
  unfold regsFit
  rw [List.all_eq_true]
  constructor
  · intro h r v hv
    have := h s.regs[r] (Vector.mem_toList_iff.mpr (Vector.getElem_mem _))
    simpa [hv] using this
  · intro h o ho
    obtain ⟨k, hk, rfl⟩ := Vector.mem_iff_getElem.mp (Vector.mem_toList_iff.mp ho)
    split
    · rfl
    · next v hv => exact h ⟨k, hk⟩ v hv

/-- A command takes nothing from the command channel: its words were taken before. -/
theorem exec_cmd_eq {i : Instr} {s t : State} (h : exec i s = .next t) : t.cmd = s.cmd := by
  rcases exec_shape i s with ⟨-, h'⟩ | ⟨_, -, h'⟩ | ⟨_, -, -, -, h'⟩ | ⟨-, -, r, -, h'⟩ <;> rw [h'] at h
  · cases h; rfl
  · cases h; rfl
  · simp at h
  · cases h
    rcases runCommand_cases i r s with ⟨-, h⟩ | ⟨-, _, h, -⟩ | ⟨-, -, _, -, -, h⟩ <;> rw [h] <;> simp

theorem hostTake_eq_some {s t : State} {w : Word} (h : hostTake s = some (w, t)) :
    s.rsp = w :: t.rsp ∧ t = { s with rsp := t.rsp } := by
  unfold hostTake at h
  split at h
  · simp at h
  · next hr => simp only [Option.some.injEq, Prod.mk.injEq] at h; obtain ⟨rfl, rfl⟩ := h; exact ⟨hr, rfl⟩

end Sys2Proof.Machine
end

