-- ==== Sys2Proof/Laws/Run.lean ====
section
/-! SUPPORT. What one event does to a run, said once, and lists of events one after the other. -/

namespace Sys2Proof.Machine

@[simp] theorem run_start_state (s : State) : (Run.start s).state = s := rfl
@[simp] theorem run_start_sent (s : State) : (Run.start s).sent = [] := rfl
@[simp] theorem run_start_taken (s : State) : (Run.start s).taken = [] := rfl
@[simp] theorem run_start_executed (s : State) : (Run.start s).executed = 0 := rfl

/-- Everything an event can do to a run: the host sends a word, the host takes the oldest response word, or the engine
makes a step. -/
theorem run_next_cases {e : Event} {r q : Run} (h : Run.next e r = some q) :
    (∃ w, e = .send w ∧ q = { r with state := hostSend w r.state, sent := r.sent ++ [w] }) ∨
    (∃ w ws, e = .take ∧ r.state.rsp = w :: ws ∧
      q = { r with state := { r.state with rsp := ws }, taken := r.taken ++ [w] }) ∨
    (∃ t, e = .engine ∧ step r.state = .next t ∧ q = { r with state := t, executed := r.executed + 1 }) := by
  cases e with
  | send w => cases h; exact .inl ⟨w, rfl, rfl⟩
  | take =>
    cases hr : r.state.rsp with
    | nil => simp [Run.next, hostTake, hr] at h
    | cons w ws =>
      simp only [Run.next, hostTake, hr, Option.map_some, Option.some.injEq] at h
      exact .inr (.inl ⟨w, ws, rfl, rfl, h.symm⟩)
  | engine =>
    simp only [Run.next] at h
    cases hs : step r.state with
    | next t => rw [hs] at h; cases h; exact .inr (.inr ⟨t, rfl, rfl, rfl⟩)
    | fault f => rw [hs] at h; simp at h
    | refused f => rw [hs] at h; simp at h

theorem run_play_cons (e : Event) (es : List Event) (r : Run) :
    Run.play (e :: es) r = (Run.next e r).bind (Run.play es) := rfl

theorem run_play_append : ∀ (es fs : List Event) (r : Run),
    Run.play (es ++ fs) r = (Run.play es r).bind (Run.play fs)
  | [], _, _ => rfl
  | e :: es, fs, r => by
    rw [List.cons_append, run_play_cons, run_play_cons, Option.bind_assoc]
    exact congrArg _ (funext fun q => run_play_append es fs q)

end Sys2Proof.Machine
end

