-- ==== Sys2Proof/Laws/Serial.lean ====
section
/-! SUPPORT. The limbs of a magnitude, and the number that limbs stand for (R54, R55). -/

namespace Sys2Proof.Machine

theorem lowLimbs_length : ∀ n m, (lowLimbs n m).length = n
  | 0, _ => rfl
  | n + 1, m => by simp [lowLimbs, lowLimbs_length n]

/-- Limbs read back as the number they were taken from, as far as they reach. -/
theorem magnitude_lowLimbs : ∀ n m, magnitude (lowLimbs n m) = m % 2 ^ (32 * n)
  | 0, m => by simp [lowLimbs, magnitude, Nat.mod_one]
  | n + 1, m => by
    rw [lowLimbs, magnitude, magnitude_lowLimbs n, BitVec.toNat_ofNat, show 32 * (n + 1) = 32 + 32 * n by ring, pow_add,
      Nat.mod_mul]

/-- A magnitude is below the weight of the limb after its last. -/
theorem lt_two_pow_limbCount (m : Nat) : m < 2 ^ (32 * limbCount m) :=
  (bitLength_le_iff m _).mp (by unfold limbCount; omega)

theorem lowLimbs_eq_map : ∀ n m, lowLimbs n m = (List.range n).map (fun j => BitVec.ofNat 32 (m / 2 ^ (32 * j)))
  | 0, _ => rfl
  | n + 1, m => by
    rw [lowLimbs, lowLimbs_eq_map n, List.range_succ_eq_map, List.map_cons, List.map_map]
    congr 1
    · simp
    · refine List.map_congr_left fun j _ => ?_
      simp only [Function.comp, Nat.succ_eq_add_one]
      rw [Nat.div_div_eq_div_mul, ← pow_add, show 32 + 32 * j = 32 * (j + 1) by ring]

theorem magnitude_lt : ∀ ws, magnitude ws < 2 ^ (32 * ws.length)
  | [] => by simp [magnitude]
  | w :: ws => by
    have hw := w.isLt
    rw [magnitude, List.length_cons, show 32 * (ws.length + 1) = 32 + 32 * ws.length by ring, pow_add]
    have : 2 ^ 32 * (magnitude ws + 1) ≤ 2 ^ 32 * 2 ^ (32 * ws.length) := Nat.mul_le_mul_left _ (magnitude_lt ws)
    omega

theorem natAbs_payloadValue (p : Payload) : (payloadValue p).natAbs = magnitude p.limbs := by
  unfold payloadValue; split <;> simp

end Sys2Proof.Machine
end

