-- ==== Sys2Proof/Tests/Slice0.lean ====
section
/-! SUPPORT. Tests: expected values are the vectors of 95_test_vectors.md and the worked examples of the rules, named in
each comment; then a witness for every obligation that has hypotheses. -/

namespace Sys2Proof.Machine.Tests

/-- Reset, with some registers written. -/
def withRegs (l : List (Reg × Int)) : State := writeAll l State.reset

/-- One step on the words `ws` with some registers written. -/
def go (l : List (Reg × Int)) (ws : List Word) : Host.Outcome State Fault Refusal := step { withRegs l with cmd := ws }

/-- A field of the next state, if there is one. -/
def look {α : Type} (f : State → α) : Host.Outcome State Fault Refusal → Option α
  | .next t => some (f t)
  | .fault _ => none
  | .refused _ => none

/-- Some registers and the response channel of the next state. -/
def regsOf (l : List Reg) : State → List (Option Int) × List Word := fun t => (l.map (fun r => t.regs[r]), t.rsp)

/-- The system registers and the response channel of the next state. -/
def sysOf : State → List Word := fun t => statusWord t :: t.errCmd :: t.rsp

/-- The state after fault F8: `RD x0` right after reset. -/
def latched : State := { State.reset with err := true, errCode := 6, errCmd := 0x12000000 }

/-! ### WellFormed: a term that each check refuses -/

theorem test_wf_div : (Instr.div 3 3 1 2).wellFormed = false := by decide
theorem test_wf_egcd_rd_rd2 : (Instr.egcd 3 3 5 1 2).wellFormed = false := by decide
theorem test_wf_egcd_rd_rd3 : (Instr.egcd 3 4 3 1 2).wellFormed = false := by decide
theorem test_wf_egcd_rd2_rd3 : (Instr.egcd 3 4 4 1 2).wellFormed = false := by decide
theorem test_wf_mrdec : (Instr.mrdec 2 2 1).wellFormed = false := by decide
theorem test_wf_ldi (ls : List Word) (h : ls.length = 2 ^ 31) : (Instr.ldi 1 ⟨false, ls⟩).wellFormed = false := by
  simp [Instr.wellFormed, h]
theorem test_wf_in_place : (Instr.div 1 2 1 2).wellFormed = true := by decide

/-! ### Decoding: words written out from the encodings (R92 and section 2.1 of the vectors) -/

theorem test_decode_nop : decode 0x00000000 .empty = .ok .nop := by decide
theorem test_decode_ack : decode 0x01000000 .empty = .ok .ack := by decide
theorem test_decode_rdsr : decode 0x02000001 .empty = .ok (.rdsr .status) := by decide
theorem test_decode_rdsr_top : decode 0x02000003 .empty = .ok (.rdsr .cap) := by decide
theorem test_decode_ldi : decode 0x10F00000 ⟨true, [9]⟩ = .ok (.ldi 15 ⟨true, [9]⟩) := by decide
theorem test_decode_li : decode 0x111000F0 .empty = .ok (.li 1 240) := by decide
theorem test_decode_li_top : decode 0x11008000 .empty = .ok (.li 0 0x8000) := by decide
theorem test_decode_rd : decode 0x12003000 .empty = .ok (.readout 3) := by decide
theorem test_decode_mul : decode 0x20301200 .empty = .ok (.mul 3 1 2) := by decide
theorem test_decode_mul_top : decode 0x20F0FF00 .empty = .ok (.mul 15 15 15) := by decide
theorem test_decode_div : decode 0x21451200 .empty = .ok (.div 4 5 1 2) := by decide
theorem test_decode_egcd : decode 0x30341205 .empty = .ok (.egcd 3 4 5 1 2) := by decide
theorem test_decode_egcd_high : decode 0x3089760A .empty = .ok (.egcd 8 9 10 7 6) := by decide
theorem test_decode_modinv : decode 0x31301200 .empty = .ok (.modinv 3 1 2) := by decide
theorem test_decode_modexp : decode 0x40401230 .empty = .ok (.modexp 4 1 2 3) := by decide
theorem test_decode_modexp_high : decode 0x40F0F730 .empty = .ok (.modexp 15 15 7 3) := by decide
theorem test_decode_mrdec : decode 0x50231000 .empty = .ok (.mrdec 2 3 1) := by decide
theorem test_decode_mrw : decode 0x51504321 .empty = .ok (.mrw 5 4 3 2 1) := by decide

theorem test_reserved_opcodes : [0x03000000, 0xFFFFFFFF, 0x13000000].map (fun w => decode w .empty) =
    List.replicate 3 (.error .reservedOpcode) := by decide
theorem test_must_be_zero : [0x00000001, 0x01100000, 0x02000010, 0x11110000, 0x12103000, 0x20301201, 0x20311200,
    0x21451210, 0x30341215, 0x31301210, 0x40401231, 0x50231100, 0x51514321, 0x10100001].map (fun w => decode w .empty) =
    List.replicate 14 (.error .mustBeZero) := by decide
theorem test_reserved_sysreg : decode 0x02000004 .empty = .error .reservedSysReg := by decide
theorem test_equal_destinations : [0x21331200, 0x30331205, 0x30341203, 0x30341204, 0x50221000].map
    (fun w => decode w .empty) = List.replicate 5 (.error .equalDestinations) := by decide

theorem test_encode_egcd : encode (.egcd 3 4 5 1 2) = [0x30341205] := by decide
theorem test_encode_mrw : encode (.mrw 5 4 3 2 1) = [0x51504321] := by decide
/-- P5, command 4. -/
theorem test_encode_ldi : encode (ldiOf 3 (-1099511627776)) = [0x10300000, 0x80000002, 0x00000000, 0x00000100] := by
  decide +kernel

/-- An `LDI` owns its payload although its word is illegal (section 2.1, last row). -/
theorem test_cut_illegal_ldi : cut [0x10100001, 1, 7, 0x00000000] = .ready 0x10100001 ⟨false, [7]⟩ [0x00000000] := by
  decide
theorem test_cut_short : cut [0x10100000, 2, 7] = .incomplete := by decide
theorem test_table_word_pads : tableWords 32 0x10100000 = [0x10100000, 0] := by decide
theorem test_table_word_ldi : decodeTableWord 32 0x10100000 = some (.ldi 1 .empty) := by decide

/-! ### The assembler (P5; R90) -/

theorem test_assemble_program : assembleWords "LDI x1, #18446744073709551615\nSQR x2, x1 ; square\n\nRD x2" =
    some [0x10100000, 0x00000002, 0xFFFFFFFF, 0xFFFFFFFF, 0x20201100, 0x12002000] := by decide +kernel
theorem test_assemble_range : assembleWords "LI x1, 0x8000" = none := by decide +kernel
theorem test_assemble_equal : assembleWords "DIV x3, x3, x1, x2" = none := by decide +kernel
theorem test_assemble_sysreg : assembleWords "RDSR 3" = assembleWords "RDSR CAP" := by decide +kernel

/-! ### The host's two questions -/

theorem test_place : look id (step (State.reset.withFetchWord 32 0x111000F0)) =
    look id (exec (.li 1 240) State.reset) := by decide
theorem test_place_ldi : look (regsOf [1]) (step (State.reset.withFetchWord 32 0x10100000)) = some ([some 0], [0]) := by
  decide

theorem test_place_empty_queue : (State.reset.withFetchWord 32 0).rsp = [] := by decide

/-! ### Holds and runs (R59, R60, R258; F8, F10, F14) -/

/-- A state in which the response queue is full and a `NOP` waits. -/
def fullQueue : State := { State.reset with cmd := [0x00000000], rsp := List.replicate Config.rspDepth 6 }

theorem fullQueue_full : rspFull fullQueue = true := (rspFull_iff _).mpr (by simp [fullQueue])

theorem test_hold : step fullQueue = .fault .responseFull := by
  obtain ⟨h, -⟩ | ⟨h, -⟩ | ⟨_, _, _, -, ⟨-, h⟩ | ⟨h, -⟩⟩ := step_cases fullQueue
  · exact absurd h (by simp [fullQueue, cut, opcodeByte, field])
  · exact absurd h (by simp [fullQueue, cut, opcodeByte, field])
  · exact h
  · exact absurd h (by simp [fullQueue_full])

/-- `RD x0` after reset, an illegal word, `ACK`: the words taken are 6, 8 and 0. -/
def faultRun : Option Run := Run.play [.send 0x12000000, .engine, .send 0x03000000, .take, .engine, .take,
    .send 0x01000000, .engine, .take] (Run.start State.reset)

/-- The commands of that run. -/
def faultCommands : List Command := [⟨0x12000000, .empty⟩, ⟨0x03000000, .empty⟩, ⟨0x01000000, .empty⟩]

theorem test_run : faultRun = some ⟨State.reset, [0x12000000, 0x03000000, 0x01000000], [6, 8, 0], 3⟩ := by decide
theorem test_run_ended : Run.EndedWell faultCommands
    ⟨State.reset, [0x12000000, 0x03000000, 0x01000000], [6, 8, 0], 3⟩ := by
  unfold Run.EndedWell Run.Ended; decide
theorem test_responses : responsesOf faultCommands State.reset = [[6], [8], [0]] ∧
    allClean faultCommands State.reset = false := by decide
/-- Nothing has ended before a command is sent, unless the list is empty. -/
theorem test_not_ended : ¬ Run.Ended faultCommands (Run.start State.reset) := by unfold Run.Ended; decide

/-! ### Data movement (L2, L5, L8, L12, L13, L14, L15) -/

theorem test_li_negative : look (regsOf [1]) (go [] [0x1110FFFF]) = some ([some (-1)], [0]) := by decide
theorem test_li_lowest : look (regsOf [1]) (go [] [0x11108000]) = some ([some (-32768)], [0]) := by decide
theorem test_ldi_negative_zero : look (regsOf [1]) (go [(1, 9)] [0x10100000, 0x80000000]) = some ([some 0], [0]) := by
  decide
theorem test_ldi_negative : look (regsOf [2]) (go [] [0x10200000, 0x80000001, 9]) = some ([some (-9)], [0]) := by decide
theorem test_rd_negative : look (regsOf [3]) (go [(3, -9)] [0x12003000]) =
    some ([some (-9)], [0, 0x80000001, 9]) := by decide
theorem test_rd_two_limbs : look (regsOf []) (go [(3, 4294967296)] [0x12003000]) = some ([], [0, 2, 0, 1]) := by
  decide +kernel
/-- L7, L8, L11. -/
theorem test_payload_values : payloadValue ⟨true, [0, 0]⟩ = 0 ∧ payloadValue ⟨false, [5, 0, 0]⟩ = 5 ∧
    payloadValue ⟨true, [0, 0x100]⟩ = -1099511627776 := by decide +kernel
/-- L17, K11 to K14: the two capacity tests, for a block with 256 limbs and for one with 1. -/
theorem test_capacity : Limit.admitsLimbs (.limbs 255) 257 = false ∧ Limit.admitsLimbs (.limbs 255) 256 = true ∧
    Limit.admitsLimbs .unbounded 257 = true ∧ Limit.admitsBits (.limbs 0) (bitLength 4294967295) = true ∧
    Limit.admitsBits (.limbs 0) (bitLength 4294967296) = false ∧ Limit.admitsBits (.limbs 255) 8192 = true ∧
    Limit.admitsBits (.limbs 255) 8193 = false := by decide +kernel

/-! ### Multiplier (K1, K15, K8, R125) -/

theorem test_mul_signs : look (regsOf [3]) (go [(1, -3), (2, 5)] [0x20301200]) = some ([some (-15)], [0]) := by decide
theorem test_mul_in_place : look (regsOf [1]) (go [(1, 7)] [0x20101100]) = some ([some 49], [0]) := by decide
theorem test_karatsuba : kMul 3 13 11 = 143 ∧ kMul 32 0xFFFFFFFFFFFFFFFF 0xFFFFFFFFFFFFFFFF =
    0xFFFFFFFFFFFFFFFE0000000000000001 ∧ kMul 32 0x123456789ABCDEF0FEDCBA9876543210 0x0FEDCBA987654321 =
    0x121FA00AD77D7423212849961EF529CCDEEC6CD7A44A410 := by decide +kernel
theorem test_karatsuba_signs : kProduct 32 (-1099511627776) 1099511627776 = -1208925819614629174706176 ∧
    kProduct 3 (-3) (-5) = 15 ∧ kProduct 3 0 (-5) = 0 := by decide +kernel

/-! ### Divider (V1, V16, V13, R134) -/

theorem test_div : look (regsOf [4, 5]) (go [(1, 240), (2, 46)] [0x21451200]) = some ([some 5, some 10], [0]) := by
  decide
theorem test_div_in_place : look (regsOf [1, 2]) (go [(1, 240), (2, 46)] [0x21121200]) =
    some ([some 5, some 10], [0]) := by decide
theorem test_div_bit_serial : divRef 13 3 = (4, 1) ∧ divLoop 13 3 3 (divStep 3 1 (0, 0)) = (4, 1) ∧
    divStep 3 1 (0, 1) = (1, 0) ∧ divRef 0 5 = (0, 0) := by decide

/-! ### GCD and inverse (S1, E2, E5, E3, S2, I3) -/

theorem test_egcd : look (regsOf [3, 4, 5]) (go [(1, 240), (2, 46)] [0x30341205]) =
    some ([some 2, some (-9), some 47], [0]) := by decide
theorem test_egcd_units : egcdRef 46 240 = ⟨2, 47, -9⟩ ∧ egcdRef 0 7 = ⟨7, 0, 1⟩ ∧ egcdRef 0 0 = ⟨0, 1, 0⟩ ∧
    egcdIter 240 46 = ⟨2, -9, 47⟩ ∧ egcdRef 18446744073709551557 4294967311 =
    ⟨1, -957311991, 4111623679053966508⟩ := by decide +kernel
theorem test_modinv : look (regsOf [3]) (go [(1, 3), (2, 11)] [0x31301200]) = some ([some 4], [0]) := by decide
theorem test_modinv_normalised : look (regsOf [3]) (go [(1, 10), (2, 7)] [0x31301200]) = some ([some 5], [0]) := by
  decide

/-! ### Modular exponentiation (M1, M21, M2, M3, R155) -/

theorem test_modexp : look (regsOf [4]) (go [(1, 4), (2, 13), (3, 497)] [0x40401230]) = some ([some 445], [0]) := by
  decide
theorem test_modexp_in_place : look (regsOf [1]) (go [(1, 65), (7, 7), (3, 3233)] [0x40101730]) =
    some ([some 1317], [0]) := by decide
theorem test_modpow_corners : modPow 2 10 1 = 0 ∧ modPow 0 0 7 = 1 ∧ modPow 0 5 7 = 0 ∧ modPow 1000 3 7 = 6 ∧
    modPow 0x123456789ABCDEF 0x10001 18446744073709551557 = 0xD3097250901A4710 := by decide +kernel
theorem test_montgomery : radixBits 497 = 32 ∧ montInv 497 (2 ^ 32) = 0x28B130EF ∧ redc 32 497 0x28B130EF 1744 = 107 ∧
    montLoop 32 497 0x28B130EF 107 13 2 221 = 100 ∧ redc 32 497 0x28B130EF 100 = 445 ∧ montExp 4 13 497 = 445 := by
  decide +kernel

/-! ### Miller-Rabin (D1, D7, D9, W1, W10, W12, W20, W21, W22) -/

theorem test_mrdec : look (regsOf [2, 3]) (go [(1, 997)] [0x50231000]) = some ([some 249, some 2], [0]) := by decide
theorem test_odd_part : oddPart 9 = (9, 0) ∧ oddPart 1 = (1, 0) ∧ oddPart 18446744073709551616 = (1, 64) := by
  decide +kernel
theorem test_mrw_pass : look (regsOf [5]) (go [(1, 997), (2, 249), (3, 2), (4, 2)] [0x51504321]) =
    some ([some 1], [0]) := by decide
theorem test_mrw_fail : look (regsOf [5]) (go [(1, 561), (2, 35), (3, 4), (4, 2)] [0x51504321]) =
    some ([some 0], [0]) := by decide
theorem test_witness : witnessRef 50 4 35 561 = 1 ∧ witnessRef 2 64 1 18446744073709551617 = 1 ∧
    witnessRef 3 64 1 18446744073709551617 = 0 ∧ witnessRef 5 0 0 9 = 1 ∧ witnessRef 997 2 249 997 = 0 := by
  decide +kernel

/-! ### System commands, faults and the latch (F1, F2, F8 to F11, F13, F14, F16, V10, V15, S3, M16, W23, D10) -/

theorem test_rdsr_id : look sysOf (go [] [0x02000000]) = some [0, 0, 0, 0x43303101] := by decide
theorem test_cap : capWordOf (.limbs 255) = 0x10000100 ∧ capWordOf .unbounded = 0x10000000 := by decide
theorem test_nop : look id (go [] [0x00000000]) = some { State.reset with rsp := [0] } := by decide
theorem test_uninit : look sysOf (go [] [0x12000000]) = some [0x00000061, 0x12000000, 6] := by decide
theorem test_blocked : look sysOf (step { latched with cmd := [0x11000001] }) = some [0x00000063, 0x12000000, 8] := by
  decide
theorem test_blocked_illegal : look sysOf (step { latched with cmd := [0x03000000] }) =
    some [0x00000063, 0x12000000, 8] := by decide
theorem test_blocked_stray_ack : look sysOf (step { latched with cmd := [0x01000001] }) =
    some [0x00000063, 0x12000000, 8] := by decide
theorem test_blocked_ldi : look id (step { latched with cmd := [0x10000000, 1, 7, 0x01000000] }) =
    some { latched with cmd := [0x01000000], lost := true, rsp := [8] } := by decide
theorem test_rdsr_latched : look sysOf (step { latched with lost := true, cmd := [0x02000001] }) =
    some [0x00000063, 0x12000000, 0, 0x00000063] := by decide
theorem test_ack : look id (step { latched with lost := true, cmd := [0x01000000] }) =
    some { State.reset with rsp := [0] } := by decide
theorem test_illegal_before_uninit : look sysOf (go [] [0x20311200]) = some [0x00000051, 0x20311200, 5] := by decide
theorem test_div_by_zero : look sysOf (go [(1, 240), (2, 0)] [0x21451200]) = some [0x00000011, 0x21451200, 1] := by
  decide
theorem test_uninit_before_argument : look sysOf (go [(2, 0)] [0x21451200]) = some [0x00000061, 0x21451200, 6] := by
  decide
theorem test_no_inverse : look (regsOf [3]) (go [(1, 4), (2, 8), (3, 7)] [0x31301200]) = some ([some 7], [2]) := by decide
theorem test_no_inverse_status : look sysOf (go [(1, 4), (2, 8)] [0x31301200]) = some [0x00000021, 0x31301200, 2] := by
  decide
theorem test_even_modulus : look sysOf (go [(1, 2), (2, 10), (3, 496)] [0x40401230]) =
    some [0x00000011, 0x40401230, 1] := by decide
theorem test_even_candidate : look sysOf (go [(1, 998), (2, 249), (3, 2), (4, 2)] [0x51504321]) =
    some [0x00000011, 0x51504321, 1] := by decide
theorem test_mrdec_below_two : look sysOf (go [(1, 1)] [0x50231000]) = some [0x00000011, 0x50231000, 1] := by decide
/-- Z1: reset discards the response not yet taken. -/
theorem test_reset : applyReset { withRegs [(1, 240)] with err := true, errCode := 1, rsp := [1] } = State.reset := by
  decide

/-! ### A witness for the hypotheses of every obligation that has some, each clause at a boundary value -/

theorem witness_DecodeOfEncodeIsTheCommand : (Instr.egcd 0 1 15 15 0).wellFormed = true ∧
    (Instr.ldi 15 ⟨true, [0xFFFFFFFF]⟩).wellFormed = true := by decide
theorem witness_DecodedStreamIsTheEncoding : cut [0x10F00000, 0x80000001, 9, 0] = .ready 0x10F00000 ⟨true, [9]⟩ [0] ∧
    decode 0x10F00000 ⟨true, [9]⟩ = .ok (.ldi 15 ⟨true, [9]⟩) := by decide
theorem witness_DecoderAgreesWithTheOpcodeTable : decode 0x51000000 .empty = .ok (.mrw 0 0 0 0 0) ∧
    decode 0x21331200 .empty = .error .equalDestinations ∧
    Row.fits ⟨"DIV", 0x21000000, 0xFF0000FF⟩ 0x21331200 = true := by decide
theorem witness_OpcodeTableRowsAreDisjoint : Row.fits ⟨"RDSR", 0x02000000, 0xFFFFFFFC⟩ 0x02000003 = true := by decide
theorem witness_CutDependsOnOpcodeAndHeaderOnly : opcodeByte 0x11000000 ≠ 0x10 ∧ opcodeByte 0x0F000000 ≠ 0x10 ∧
    opcodeByte 0x10FFFFFF = 0x10 ∧ ([] : List Word).length = headerCount 0x80000000 ∧
    ([7] : List Word).length = headerCount 1 := by decide
theorem witness_StepRunsTheDecodedCommand : cut (State.cmd { State.reset with cmd := [0x01000000] }) =
    .ready 0x01000000 .empty [] ∧ rspFull { State.reset with cmd := [0x01000000] } = false ∧
    decode 0x01000000 .empty = .ok .ack := by decide
theorem witness_IllegalWordFaultsOrIsBlocked : cut [0x03000000] = .ready 0x03000000 .empty [] ∧
    decode 0x03000000 .empty = .error .reservedOpcode ∧ State.reset.err = false ∧ latched.err = true ∧
    rspFull State.reset = false ∧ rspFull latched = false := by decide
theorem witness_StepHoldsExactlyInThreeSituations : step fullQueue = .fault .responseFull := test_hold
theorem witness_RunIsExecFoldedOverTheCommands : (∀ c ∈ faultCommands, c.wellFormed = true) ∧ State.reset.cmd = [] ∧
    (faultRun.map Run.executed) = some 3 ∧ look State.rsp (execAll faultCommands State.reset) = some [6, 8, 0] := by
  decide
theorem witness_Command : Command.wellFormed ⟨0x10F00000, ⟨true, [9]⟩⟩ = true ∧
    Command.wellFormed ⟨0x11000000, ⟨true, [9]⟩⟩ = false := by decide
theorem witness_ResetFromAnyState : (PortLevels.mk false true true 7 true).rstN = false := by decide
theorem witness_PortCycleMovesWordsOnly : (PortLevels.mk true true true 7 true).rstN = true := by decide

/-- States that meet the invariant: values in registers, and the latch set. -/
theorem witness_Inv : (withRegs [(1, 240), (2, -46), (15, 0)]).Inv ∧ latched.Inv := by
  unfold State.Inv; decide
theorem witness_EveryStepKeepsTheInvariant : State.Inv { latched with cmd := [0x01000000] } ∧
    look State.err (step { latched with cmd := [0x01000000] }) = some false := by unfold State.Inv; decide
theorem witness_EveryPortCycleKeepsTheInvariant : State.Inv { latched with rsp := [6] } := by unfold State.Inv; decide
theorem witness_EveryStepGivesExactlyOneResponse : look State.rsp (go [] [0x12000000]) = some [6] ∧
    look State.rsp (exec .nop State.reset) = some [0] ∧ (∀ r, Instr.nop ≠ .readout r) ∧
    (∀ sr, Instr.nop ≠ .rdsr sr) ∧ State.rsp { State.reset with rsp := [0, 7] } = [0, 7] := by
  refine ⟨by decide, by decide, by simp, by simp, rfl⟩
theorem witness_FaultEntryChangesTheLatchOnly : (withRegs []).err = false ∧
    look State.err (go [] [0x12000000]) = some true := by decide
theorem witness_LatchedCommandsAreBlocked : latched.err = true ∧ rspFull latched = false ∧ cut [0x11000001] = .ready 0x11000001 .empty [] ∧
    cut [0x02000004] = .ready 0x02000004 .empty [] ∧ cut [0x01000000] = .ready 0x01000000 .empty [] ∧
    cut [0x02000003] = .ready (BitVec.ofNat 32 (0x02000000 + sysRegIndex .cap)) .empty [] := by decide
theorem witness_OnlyAckLeavesTheLatch : latched.err = true ∧
    look State.err (step { latched with cmd := [0x01000000] }) = some false ∧
    look State.err (step { latched with cmd := [0x01000001] }) = some true := by decide
theorem witness_NoStepClearsAValidBit : (withRegs [(1, 0)]).regs[1] ≠ none ∧
    look (fun t => t.regs[1]) (go [(1, 0)] [0x1110FFFF]) = some (some (-1)) := by decide
theorem witness_UninitialisedSourceFaults : (Instr.mrw 5 4 3 2 1).wellFormed = true ∧
    (withRegs [(2, 1), (3, 1), (4, 1)]).err = false ∧
    ∃ r ∈ (Instr.mrw 5 4 3 2 1).sources, (withRegs [(2, 1), (3, 1), (4, 1)]).regs[r] = none := by decide
/-- One state for all six clauses: dividend and divisor at 0 and -1, a modulus of 0, a candidate of 1 and one of 2. -/
theorem witness_InvalidArgumentCauses : (withRegs [(1, -1), (2, 0), (3, 0), (4, 2)]).err = false ∧
    (withRegs [(1, -1), (2, 0), (3, 0), (4, 2)]).regs[(1 : Reg)] = some (-1) ∧
    (withRegs [(1, -1), (2, 0), (3, 0), (4, 2)]).regs[(2 : Reg)] = some 0 ∧
    (withRegs [(1, -1), (2, 0), (3, 0), (4, 2)]).regs[(3 : Reg)] = some 0 ∧
    (withRegs [(1, -1), (2, 0), (3, 0), (4, 2)]).regs[(4 : Reg)] = some 2 ∧
    (5 : Reg) ≠ 6 ∧ (5 : Reg) ≠ 7 ∧ (6 : Reg) ≠ 7 := by decide
theorem witness_InvalidArgumentCauses_mrdec : (withRegs [(1, 1)]).err = false ∧
    (withRegs [(1, 1)]).regs[(1 : Reg)] = some 1 ∧ (1 : Int) < 2 ∧ (5 : Reg) ≠ 6 ∧ (5 : Reg) ≠ 7 ∧ (6 : Reg) ≠ 7 := by
  decide
theorem witness_NoInverseFaults : (withRegs [(1, 0), (2, 5)]).err = false ∧
    (withRegs [(1, 0), (2, 5)]).regs[(1 : Reg)] = some 0 ∧ (withRegs [(1, 0), (2, 5)]).regs[(2 : Reg)] = some 5 ∧
    Int.gcd 0 5 ≠ 1 := by decide
theorem witness_CleanExactlyWhenTheResponseIsOk : State.reset.err = false ∧
    look State.rsp (exec (.li 1 5) State.reset) = some [0] ∧ look State.rsp (exec (.readout 0) State.reset) = some [6] ∧
    allClean [⟨0x11000001, .empty⟩, ⟨0x00000000, .empty⟩] State.reset = true ∧
    look State.err (execAll [⟨0x11000001, .empty⟩, ⟨0x00000000, .empty⟩] State.reset) = some false := by decide
theorem witness_OnlyLdiAndMulExceedCapacity : State.reset.Inv ∧ State.reset.err = false ∧
    look State.errCode (exec (.li 1 5) State.reset) = some 0 := by unfold State.Inv; decide
/-- The state with a value of `k` limbs and one bit in `x0`. -/
def huge (k : Nat) : State := { State.reset with regs := State.reset.regs.set 0 (some (2 ^ (32 * k))) }
theorem huge_refused (k : Nat) (h : 2 ^ 31 - 1 ≤ k) : exec (.readout 0) (huge k) = .refused .readTooLong := by
  have hv : (huge k).regs[(0 : Reg)] = some (2 ^ (32 * k)) := by simp [huge]
  have hb : ¬ bitLength (2 ^ (32 * k)) ≤ 32 * k := by rw [bitLength_le_iff]; exact lt_irrefl _
  have hl : readTooLong 0 (huge k) = true := by
    have hn : ((2 : Int) ^ (32 * k)).natAbs = 2 ^ (32 * k) := by rw [Int.natAbs_pow]; rfl
    unfold readTooLong
    rw [hv]
    simp only [decide_eq_true_eq, limbCount, hn]
    omega
  have he : (huge k).err = false := rfl
  simp only [exec, execRd, hl, he, Bool.not_false, Bool.and_true, if_true]
theorem witness_OnlyUncountableReadStops : exec (.readout 0) (huge (2 ^ 31 - 1)) = .refused .readTooLong :=
  huge_refused _ le_rfl

theorem witness_NopOnlyResponds : State.reset.err = false := by decide
theorem witness_LdiLoadsThePayload : State.reset.err = false ∧
    Limit.admitsLimbs Config.maxLimbs (Payload.limbs ⟨true, [0xFFFFFFFF]⟩).length = true :=
  ⟨rfl, by rw [← limbsFit_eq]; rfl⟩
theorem witness_LiLoadsTheSignedImmediate : State.reset.err = false := by decide
theorem witness_RdAnswersTheCanonicalForm : (withRegs [(3, 0)]).err = false ∧
    (withRegs [(3, 0)]).regs[(3 : Reg)] = some 0 ∧ limbCount 0 < 2 ^ 31 - 1 := by decide
theorem witness_MulWritesTheProduct : (withRegs [(1, -65535), (2, 65537)]).err = false ∧
    (withRegs [(1, -65535), (2, 65537)]).regs[(1 : Reg)] = some (-65535) ∧
    (withRegs [(1, -65535), (2, 65537)]).regs[(2 : Reg)] = some 65537 ∧
    Limit.admitsBits Config.maxLimbs (bitLength ((-65535) * 65537 : Int).natAbs) = true :=
  ⟨by decide, by decide, by decide, by rw [← fits_eq]; decide +kernel⟩
theorem witness_DivWritesQuotientAndRemainder : (withRegs [(1, 6), (2, 7)]).err = false ∧
    regsFit (withRegs [(1, 6), (2, 7)]) = true ∧ (1 : Reg) ≠ 2 ∧ (withRegs [(1, 6), (2, 7)]).regs[(1 : Reg)] = some 6 ∧
    (withRegs [(1, 6), (2, 7)]).regs[(2 : Reg)] = some 7 ∧ (6 : Int) = 0 * 7 + 6 := by decide
theorem witness_EgcdWritesTheReferenceTriple : (withRegs [(1, 0), (2, 0)]).err = false ∧
    regsFit (withRegs [(1, 0), (2, 0)]) = true ∧ (1 : Reg) ≠ 2 ∧ (1 : Reg) ≠ 3 ∧ (2 : Reg) ≠ 3 ∧
    (withRegs [(1, 0), (2, 0)]).regs[(1 : Reg)] = some ((0 : Nat) : Int) ∧
    (withRegs [(1, 0), (2, 0)]).regs[(2 : Reg)] = some ((0 : Nat) : Int) := by decide
theorem witness_ModinvWritesTheInverse : (withRegs [(1, 0), (2, 1)]).err = false ∧
    regsFit (withRegs [(1, 0), (2, 1)]) = true ∧ (withRegs [(1, 0), (2, 1)]).regs[(1 : Reg)] = some 0 ∧
    (withRegs [(1, 0), (2, 1)]).regs[(2 : Reg)] = some 1 ∧ Int.gcd 0 1 = 1 := by decide
theorem witness_ModexpWritesThePower : (withRegs [(1, 0), (2, 0), (3, 1)]).err = false ∧
    regsFit (withRegs [(1, 0), (2, 0), (3, 1)]) = true ∧
    (withRegs [(1, 0), (2, 0), (3, 1)]).regs[(1 : Reg)] = some ((0 : Nat) : Int) ∧
    (withRegs [(1, 0), (2, 0), (3, 1)]).regs[(2 : Reg)] = some ((0 : Nat) : Int) ∧
    (withRegs [(1, 0), (2, 0), (3, 1)]).regs[(3 : Reg)] = some ((1 : Nat) : Int) := by decide
theorem witness_MrdecWritesTheDecomposition : (withRegs [(1, 2)]).err = false ∧ regsFit (withRegs [(1, 2)]) = true ∧
    (1 : Reg) ≠ 2 ∧ (withRegs [(1, 2)]).regs[(1 : Reg)] = some ((2 : Nat) : Int) ∧ 2 - 1 = 1 * 2 ^ 0 := by decide
theorem witness_MrwWritesTheWitnessVerdict : (withRegs [(1, 3), (2, 0), (3, 0), (4, 0)]).err = false ∧
    (withRegs [(1, 3), (2, 0), (3, 0), (4, 0)]).regs[(4 : Reg)] = some ((0 : Nat) : Int) ∧
    (withRegs [(1, 3), (2, 0), (3, 0), (4, 0)]).regs[(3 : Reg)] = some ((0 : Nat) : Int) ∧
    (withRegs [(1, 3), (2, 0), (3, 0), (4, 0)]).regs[(2 : Reg)] = some ((0 : Nat) : Int) ∧
    (withRegs [(1, 3), (2, 0), (3, 0), (4, 0)]).regs[(1 : Reg)] = some ((3 : Nat) : Int) := by decide
theorem witness_OnlyDestinationsAreWritten : look State.cmd (exec (.li 1 5) State.reset) = some [] ∧
    (2 : Reg) ∉ (Instr.li 1 5).dests := by decide
theorem witness_StatusChangesOnlyByFaultBlockedAck : look State.err (exec .ack latched) = some false ∧
    look State.lost (exec .nop latched) = some true ∧ look State.err (exec (.readout 0) State.reset) = some true ∧
    look State.err (exec .nop State.reset) = some false := by decide
theorem witness_ReadsHaveNoSideEffect : look (fun t => (t.err, t.lost)) (exec (.rdsr .status) latched) =
    some (latched.err, latched.lost) ∧ look (fun t => (t.err, t.lost)) (exec (.readout 1) (withRegs [(1, 5)])) =
    some (false, false) := by decide
theorem witness_KaratsubaIsTheExactProduct : 3 ≤ 3 ∧ kMul 3 15 15 = 225 := by decide
theorem witness_SignedKaratsubaIsTheProduct : 3 ≤ 3 ∧ kProduct 3 (-15) 15 = -225 := by decide
theorem witness_EgcdRecursionAndIterationAgree : 0 < 1 ∧ egcdRef 0 1 = ⟨1, 0, 1⟩ := by decide
theorem witness_ModPowLaws : 1 ≤ 1 ∧ modPow 5 0 1 = 0 := by decide
theorem witness_MontgomeryExponentiationIsExact : 1 % 2 = 1 ∧ montExp 2 10 1 = 0 := by decide +kernel
theorem witness_BitSerialDivisionIsExact : 0 < 7 ∧ 6 = 0 * 7 + 6 ∧ 6 < 7 := by decide
theorem witness_EgcdSatisfiesBezout : 46 < 240 := by decide
theorem witness_EgcdCoefficientsAreBounded : 0 < (egcdRef 240 46).g ∧ 0 < (egcdRef 0 1).g := by decide
theorem witness_RedcDividesByTheRadix : 497 % 2 = 1 ∧ 497 < 2 ^ 32 ∧ 497 * 0x28B130EF % 2 ^ 32 = 2 ^ 32 - 1 ∧
    1744 < 2 ^ 32 * 497 := by decide
theorem witness_PrimePassesEveryWitnessRound : Nat.Prime 997 ∧ 997 - 1 = 249 * 2 ^ 2 ∧ 249 % 2 = 1 ∧ ¬ 997 ∣ 996 := by
  norm_num
theorem witness_PayloadValueIsTheWeightedSum : opcodeByte 0x10FFFFFF = 0x10 ∧
    ([0xFFFFFFFF] : List Word).length = BitVec.toNat (0x80000001 : Word) % 2 ^ 31 := by decide
theorem witness_LoadThenReadRoundTrip : State.reset.err = false ∧
    Limit.admitsLimbs Config.maxLimbs (Payload.limbs ⟨true, [0]⟩).length = true ∧
    limbCount (payloadValue ⟨true, [0]⟩).natAbs < 2 ^ 31 - 1 ∧ fits (-1) = true :=
  ⟨rfl, by rw [← limbsFit_eq]; rfl, by decide, by decide⟩

end Sys2Proof.Machine.Tests
end

section
/-! PROOFS. The state (10_state.md): what a command or a step leaves, said once in terms of the shared operations; the
invariant, operation by operation; the layouts of `STATUS` and `CAP`. -/

namespace Sys2Proof.Machine

/-! ### What a command and a step can leave -/

/-- Every next state of a command (R228, R229): acknowledged, dropped, faulted, or completed with writes that fit.
`RDSR` and `NOP` complete with no writes. -/
theorem exec_next_cases {i : Instr} {s t : State} (h : exec i s = .next t) :
    (i = .ack ∧ t = acknowledge s) ∨
    (s.err = true ∧ t = dropBlocked s) ∨
    (s.err = false ∧ ∃ e, t = takeFault e (encodeWord i) s) ∨
    ∃ ws pl, (∀ p ∈ ws, fits p.2 = true) ∧ t = respond okCode pl (writeAll ws s) := by
  rcases exec_shape i s with ⟨hi, h'⟩ | ⟨sr, -, h'⟩ | ⟨_, -, -, -, h'⟩ | ⟨-, -, r, -, h'⟩ <;> rw [h'] at h
  · cases h
    exact .inl ⟨hi, rfl⟩
  · cases h
    exact .inr (.inr (.inr ⟨[], [readSysReg sr s], by simp, rfl⟩))
  · simp at h
  · cases h
    obtain ⟨he, hr⟩ | ⟨he, e, hr, -⟩ | ⟨-, -, res, -, hfit, hr⟩ := runCommand_cases i r s
    · exact .inr (.inl ⟨he, hr⟩)
    · exact .inr (.inr (.inl ⟨he, e, hr⟩))
    · exact .inr (.inr (.inr ⟨res.writes, res.payload, hfit, hr⟩))

/-- Every next state of a step, legal command or illegal word: from the state with the command's words taken, one of the
four outcomes of `exec_next_cases`. -/
theorem step_next_cases {s t : State} (h : step s = .next t) :
    ∃ rest, t = acknowledge (consume rest s) ∨
      (s.err = true ∧ t = dropBlocked (consume rest s)) ∨
      (s.err = false ∧ ∃ e w, t = takeFault e w (consume rest s)) ∨
      ∃ ws pl, (∀ p ∈ ws, fits p.2 = true) ∧ t = respond okCode pl (writeAll ws (consume rest s)) := by
  obtain ⟨w, p, rest, -, -, hx⟩ := step_next h
  refine ⟨rest, ?_⟩
  obtain ⟨i, -, hi⟩ | ⟨_, -, hi⟩ := execCommand_cases ⟨w, p⟩ (consume rest s) <;> rw [hi] at hx
  · obtain ⟨-, ht⟩ | ⟨he, ht⟩ | ⟨he, e, ht⟩ | hw := exec_next_cases hx
    · exact .inl ht
    · exact .inr (.inl ⟨he, ht⟩)
    · exact .inr (.inr (.inl ⟨he, e, _, ht⟩))
    · exact .inr (.inr (.inr hw))
  · cases hx
    cases he : s.err with
    | true => exact .inr (.inl ⟨rfl, by simp [execIllegal, he]⟩)
    | false => exact .inr (.inr (.inl ⟨rfl, .illegalCommand, w, by simp [execIllegal, he]⟩))

/-! ### The registers after the writes of a command -/

/-- A property that a register's content has before the writes of a command, and that every written value has, it has
after them. -/
theorem writeAll_regs_induction (P : Option Int → Prop) {ws : List (Reg × Int)} {s : State} {q : Reg}
    (hs : P s.regs[q]) (hws : ∀ p ∈ ws, P (some p.2)) : P (writeAll ws s).regs[q] := by
  induction ws generalizing s with
  | nil => exact hs
  | cons p ws ih =>
    have hp : P (writeReg p.1 p.2 s).regs[q] := by
      by_cases hq : q = p.1
      · subst hq
        rw [writeReg_regs, set_same]
        exact hws p List.mem_cons_self
      · rw [writeReg_regs, set_other _ _ hq]
        exact hs
    exact ih hp fun p' hp' => hws p' (List.mem_cons_of_mem _ hp')

/-- Values that fit leave registers that fit (R24). -/
theorem regsFit_writeAll {ws : List (Reg × Int)} {s : State} (hs : regsFit s = true)
    (hws : ∀ p ∈ ws, fits p.2 = true) : regsFit (writeAll ws s) = true := by
  rw [regsFit_iff] at hs ⊢
  exact fun r => writeAll_regs_induction (fun o => ∀ v, o = some v → fits v = true) (hs r)
    fun p hp v hv => by cases hv; exact hws p hp

/-- A write never clears a valid bit (R23). -/
theorem writeAll_regs_ne_none {ws : List (Reg × Int)} {s : State} {r : Reg} (h : s.regs[r] ≠ none) :
    (writeAll ws s).regs[r] ≠ none :=
  writeAll_regs_induction (· ≠ none) h fun _ _ => Option.some_ne_none _

/-! ### The invariant, operation by operation -/

theorem faultCode_mem_faultCodes (e : CmdFault) : faultCode e ∈ faultCodes := by cases e <;> decide

/-- The invariant speaks of neither channel. -/
theorem inv_with_channels (s : State) (c r : List Word) : State.Inv { s with cmd := c, rsp := r } ↔ s.Inv := Iff.rfl

theorem consume_inv {s : State} (h : s.Inv) (rest : List Word) : (consume rest s).Inv :=
  (inv_with_channels s rest s.rsp).mpr h

theorem respond_inv {s : State} (h : s.Inv) (c : BitVec 4) (pl : List Word) : (respond c pl s).Inv :=
  (inv_with_channels s s.cmd _).mpr h

theorem reset_inv : State.reset.Inv := by
  constructor
  · rw [regsFit_iff]
    simp [State.reset]
  · decide

theorem acknowledge_inv {s : State} (h : s.Inv) : (acknowledge s).Inv := ⟨h.1, rfl⟩

/-- With the latch set `LOST` is free, so setting it keeps the invariant. -/
theorem dropBlocked_inv {s : State} (h : s.Inv) (he : s.err = true) : (dropBlocked s).Inv := by
  obtain ⟨hfit, hlatch⟩ := h
  refine ⟨hfit, ?_⟩
  simp only [latchOk, dropBlocked_err, dropBlocked_errCode, he, if_true] at hlatch ⊢
  exact hlatch

theorem takeFault_inv {s : State} (h : s.Inv) (e : CmdFault) (w : Word) : (takeFault e w s).Inv :=
  ⟨h.1, by simp [latchOk, faultCode_mem_faultCodes]⟩

theorem writeAll_inv {ws : List (Reg × Int)} {s : State} (h : s.Inv) (hws : ∀ p ∈ ws, fits p.2 = true) :
    (writeAll ws s).Inv := by
  obtain ⟨hfit, hlatch⟩ := h
  refine ⟨regsFit_writeAll hfit hws, ?_⟩
  simpa [latchOk] using hlatch

/-! ### The obligations about the invariant and the latch -/

/-- Settles O17: each of the four outcomes of a step keeps the invariant. -/
theorem everyStepKeepsTheInvariant : Obligations.EveryStepKeepsTheInvariant := by
  intro s t hs h
  obtain ⟨rest, ht⟩ := step_next_cases h
  have hc := consume_inv hs rest
  obtain rfl | ⟨he, rfl⟩ | ⟨-, e, w, rfl⟩ | ⟨ws, pl, hws, rfl⟩ := ht
  · exact acknowledge_inv hc
  · exact dropBlocked_inv hc he
  · exact takeFault_inv hc e w
  · exact respond_inv (writeAll_inv hc hws) okCode pl

/-- Settles O23: only the writes of a completed command touch a register, and a write gives a value. -/
theorem noStepClearsAValidBit : Obligations.NoStepClearsAValidBit := by
  intro s t r h hr
  obtain ⟨rest, rfl | ⟨-, rfl⟩ | ⟨-, e, w, rfl⟩ | ⟨ws, pl, -, rfl⟩⟩ := step_next_cases h
  · exact hr
  · exact hr
  · exact hr
  · exact writeAll_regs_ne_none (s := consume rest s) hr

/-- Settles O46: the four outcomes of a command are the four cases of the statement. -/
theorem statusChangesOnlyByFaultBlockedAck : Obligations.StatusChangesOnlyByFaultBlockedAck := by
  intro i s t h
  obtain ⟨rfl, rfl⟩ | ⟨he, rfl⟩ | ⟨he, e, rfl⟩ | ⟨ws, pl, -, rfl⟩ := exec_next_cases h
  · exact .inr (.inr (.inr ⟨rfl, rfl⟩))
  · exact .inr (.inr (.inl ⟨he, rfl⟩))
  · exact .inr (.inl ⟨he, faultCode e, faultCode_mem_faultCodes e, rfl⟩)
  · exact .inl (by simp)

/-- Settles O16. -/
theorem resetMeetsTheInvariant : Obligations.ResetMeetsTheInvariant := reset_inv

/-- With `rst_n` high a clock edge of the ports changes the channels alone (R51). -/
theorem portCycle_of_rstN {l : PortLevels} (s : State) (h : l.rstN = true) :
    ∃ c r, portCycle l s = { s with cmd := c, rsp := r } := by
  simp only [portCycle, h, if_true]
  cases l.cmdValid && l.cmdReady <;> cases l.rspReady && rspValid s <;> exact ⟨_, _, rfl⟩

theorem portCycle_of_reset {l : PortLevels} (s : State) (h : l.rstN = false) : portCycle l s = State.reset := by
  simp [portCycle, h, applyReset]

/-- Settles O18: a clock edge resets the block or changes its channels alone. -/
theorem everyPortCycleKeepsTheInvariant : Obligations.EveryPortCycleKeepsTheInvariant := by
  intro l s hs
  cases hl : l.rstN with
  | false =>
    rw [portCycle_of_reset s hl]
    exact reset_inv
  | true =>
    obtain ⟨c, r, h⟩ := portCycle_of_rstN s hl
    rw [h]
    exact (inv_with_channels s c r).mpr hs

/-! ### The layouts of `STATUS` and `CAP` -/

theorem statusWord_toNat (s : State) :
    (statusWord s).toNat = s.err.toNat + s.lost.toNat * 2 + s.errCode.toNat * 16 := by
  have := s.err.toNat_le
  have := s.lost.toNat_le
  have := s.errCode.isLt
  rw [statusWord, BitVec.toNat_ofNat, Nat.mod_eq_of_lt (by omega)]

/-- Settles O33: the summands of `STATUS` do not overlap, as `ERR` and `LOST` are bits and `ERRCODE` is below 16. -/
theorem statusLayout : Obligations.StatusLayout := by
  intro s
  have := s.err.toNat_le
  have := s.lost.toNat_le
  have := s.errCode.isLt
  simp only [field, statusWord_toNat]
  omega

/-- The range of `MAXLIMBS` is the range of its field (R9, R34). -/
theorem limitField_lt (m : Limit) : limitField m < 2 ^ 24 := by
  cases m with
  | unbounded => simp [limitField]
  | limbs p => simp only [limitField]; omega

theorem capWordOf_toNat (m : Limit) : (capWordOf m).toNat = 16 * 2 ^ 24 + limitField m := by
  have := limitField_lt m
  rw [capWordOf, BitVec.toNat_ofNat, Nat.mod_eq_of_lt (by omega)]

/-- Settles O34: `MAXLIMBS` stays below bit 24, so it does not reach the 16. -/
theorem capLayout : Obligations.CapLayout := by
  refine ⟨rfl, fun m => ?_⟩
  have hm := limitField_lt m
  constructor
  · simp only [field, capWordOf_toNat]
    omega
  · have hfield : field (capWordOf m) 0 24 = limitField m := by
      simp only [field, capWordOf_toNat]
      omega
    rw [hfield]
    cases m <;> rfl

end Sys2Proof.Machine
end

section
/-! PROOFS. The word stream (20_memory.md, 30_encoding.md): the cut takes exactly the words of a command, and the decoder
and the encoder undo each other. -/

namespace Sys2Proof
open Laws.EncodingHead

/-! ### The cut takes exactly the words of a command (R52) -/

theorem cut_one_word {w : Word} (h : opcodeByte w ≠ 0x10) (ws : List Word) : cut (w :: ws) = .ready w .empty ws := by
  simp [cut, h]

theorem cut_with_payload {w h : Word} {ls : List Word} (hw : opcodeByte w = 0x10) (hl : ls.length = headerCount h)
    (rest : List Word) : cut (w :: h :: (ls ++ rest)) = .ready w ⟨headerSign h, ls⟩ rest := by
  simp [cut, hw, ← hl]

/-- The words of a command are cut from any stream that begins with them. -/
theorem cut_words_append {c : Command} (hc : c.wellFormed = true) (rest : List Word) :
    cut (c.words ++ rest) = .ready c.word c.payload rest := by
  by_cases h : opcodeByte c.word = 0x10
  · have hl : c.payload.limbs.length < 2 ^ 31 := by simpa [Command.wellFormed, h] using hc
    obtain ⟨hsign, hcount⟩ := headerWord_fields c.payload.sign hl
    have := cut_with_payload h hcount.symm rest
    simpa [Command.words, h, payloadWords, hsign] using this
  · have hp : c.payload = .empty := by simpa [Command.wellFormed, h] using hc
    simpa [Command.words, h, hp] using cut_one_word h rest

/-- What is cut from a stream is a well-formed command, and the stream begins with its words. -/
theorem words_of_cut {ws rest : List Word} {w : Word} {p : Payload} (h : cut ws = .ready w p rest) :
    (Command.mk w p).wellFormed = true ∧ ws = (Command.mk w p).words ++ rest := by
  unfold cut at h
  split at h
  · simp at h
  · split at h
    · next hw =>
      split at h
      · simp at h
      · next hd ls =>
        split at h
        · simp at h
        · next hl =>
          cases h
          have hlen : (ls.take (headerCount hd)).length = headerCount hd := List.length_take_of_le (by omega)
          constructor
          · simpa [Command.wellFormed, hw, hlen] using headerCount_lt hd
          · simp [Command.words, hw, payloadWords, hlen, headerWord_of_fields]
    · next hw =>
      cases h
      simp [Command.wellFormed, Command.words, hw]

theorem cut_eq_idle_iff (ws : List Word) : cut ws = .idle ↔ ws = [] := by
  unfold cut
  split
  · simp
  · split
    · split
      · simp
      · split <;> simp
    · simp

/-- A command has begun and not all its words have arrived: its header or some limb is missing (R60). -/
theorem cut_eq_incomplete_iff (ws : List Word) :
    cut ws = .incomplete ↔ ∃ w ls, ws = w :: ls ∧ opcodeByte w = 0x10 ∧
      (ls = [] ∨ ∃ h ms, ls = h :: ms ∧ ms.length < headerCount h) := by
  match ws with
  | [] => simp [cut]
  | [w] => by_cases hw : opcodeByte w = 0x10 <;> simp [cut, hw]
  | w :: h :: ms =>
    by_cases hw : opcodeByte w = 0x10
    · by_cases hl : ms.length < headerCount h <;> simp [cut, hw, hl]
    · simp [cut, hw]

/-- Words that arrive behind a whole command stay behind it. -/
theorem cut_append {ws rest : List Word} {w : Word} {p : Payload} (h : cut ws = .ready w p rest) (more : List Word) :
    cut (ws ++ more) = .ready w p (rest ++ more) := by
  obtain ⟨hwf, rfl⟩ := words_of_cut h
  rw [List.append_assoc]
  exact cut_words_append hwf _

/-- The words of well-formed commands can be told apart: a stream begins with the words of one at most. -/
theorem words_append_inj {c d : Command} (hc : c.wellFormed = true) (hd : d.wellFormed = true) {a b : List Word}
    (h : c.words ++ a = d.words ++ b) : c = d ∧ a = b := by
  have hcut := cut_words_append hc a
  rw [h, cut_words_append hd b] at hcut
  injection hcut with hw hp hr
  cases c; cases d
  simp_all

/-- Two lists of as many commands, one after the other, can be told apart by their words. -/
theorem flatMap_words_inj {cs ds : List Command} (hc : ∀ c ∈ cs, c.wellFormed = true)
    (hd : ∀ d ∈ ds, d.wellFormed = true) (hlen : ds.length = cs.length) {rest : List Word}
    (h : cs.flatMap Command.words = ds.flatMap Command.words ++ rest) : ds = cs ∧ rest = [] := by
  induction cs generalizing ds with
  | nil =>
    obtain rfl := List.length_eq_zero_iff.mp hlen
    simpa using h.symm
  | cons c cs ih =>
    cases ds with
    | nil => simp at hlen
    | cons d ds =>
      rw [List.flatMap_cons, List.flatMap_cons, List.append_assoc] at h
      obtain ⟨rfl, htail⟩ := words_append_inj (hc c List.mem_cons_self) (hd d List.mem_cons_self) h
      obtain ⟨rfl, hrest⟩ := ih (fun c' h' => hc c' (List.mem_cons_of_mem _ h'))
        (fun d' h' => hd d' (List.mem_cons_of_mem _ h')) (Nat.succ.inj hlen) htail
      exact ⟨rfl, hrest⟩

/-! ### The decoder and the encoder undo each other (R81, R85, R86) -/

/-- The fields that a row of R85 asks to be zero are zero exactly when the register fields they are made of are. -/
theorem field_eq_zero_iff (w : Word) :
    (field w 16 8 = 0 ↔ regField w 20 = 0 ∧ regField w 16 = 0) ∧
    (field w 16 4 = 0 ↔ regField w 16 = 0) ∧
    (field w 4 4 = 0 ↔ regField w 4 = 0) ∧
    (field w 0 4 = 0 ↔ regField w 0 = 0) ∧
    (field w 0 8 = 0 ↔ regField w 4 = 0 ∧ regField w 0 = 0) ∧
    (field w 0 12 = 0 ↔ regField w 8 = 0 ∧ regField w 4 = 0 ∧ regField w 0 = 0) ∧
    (field w 0 20 = 0 ↔
      regField w 16 = 0 ∧ regField w 12 = 0 ∧ regField w 8 = 0 ∧ regField w 4 = 0 ∧ regField w 0 = 0) := by
  simp only [Fin.ext_iff, regField_val, field, Fin.val_zero]
  refine ⟨?_, ?_, ?_, ?_, ?_, ?_, ?_⟩ <;> omega

theorem opcodeByte_encodeWord (i : Instr) : opcodeByte (encodeWord i) = opcodeOf i := by
  cases i
  exacts [nop.1, ack.1, (rdsr _).1, (ldi _ .empty).1, (li _ _).1, (readout _).1, (mul _ _ _).1, (div _ _ _ _).1,
    (egcd _ _ _ _ _).1, (modinv _ _ _).1, (modexp _ _ _ _).1, (mrdec _ _ _).1, (mrw _ _ _ _ _).1]

/-- A command and its payload are a well-formed command of the channel. -/
theorem command_wellFormed {i : Instr} (h : i.wellFormed = true) : i.command.wellFormed = true := by
  have hop := opcodeByte_encodeWord i
  cases i with
  | ldi rd p =>
    exact (if_pos hop).trans h
  | _ =>
    simp only [opcodeOf] at hop
    simp [Command.wellFormed, Instr.command, hop, payloadOf]

theorem decode_encodeWord {i : Instr} (h : distinctDests i = true) : decode (encodeWord i) (payloadOf i) = .ok i := by
  have hop := opcodeByte_encodeWord i
  cases i with
  | nop | ack => decide
  | rdsr sr => cases sr <;> decide
  | li rd imm =>
    have hrd : regField (encodeWord (.li rd imm)) 20 = rd := by
      simp only [Fin.ext_iff, regField_val, encodeWord, BitVec.toNat_ofNat]
      omega
    have himm : BitVec.ofNat 16 (field (encodeWord (.li rd imm)) 0 16) = imm := by
      apply BitVec.eq_of_toNat_eq
      simp only [field, encodeWord, BitVec.toNat_ofNat]
      omega
    have hz : field (encodeWord (.li rd imm)) 16 4 = 0 := by
      simp only [field, encodeWord, BitVec.toNat_ofNat]
      omega
    simp [decode, hop, opcodeOf, hrd, himm, hz, accept_eq_ok, distinctDests]
  | _ =>
    simp only [opcodeOf] at hop
    simp only [encodeWord] at hop ⊢
    simp [decode, hop, field_eq_zero_iff, regField_packR, payloadOf, accept_eq_ok, h]

theorem decodeRdsr_eq_ok {w : Word} {i : Instr} (h : decodeRdsr w = .ok i) :
    field w 4 20 = 0 ∧ ∃ sr, i = .rdsr sr ∧ field w 0 4 = sysRegIndex sr := by
  unfold decodeRdsr at h
  split at h
  · next sr hsr =>
    obtain ⟨hz, -, rfl⟩ := accept_eq_ok.mp h
    exact ⟨of_decide_eq_true hz, sr, rfl, sysRegOf_eq_some.mp hsr⟩
  · simp at h

/-- What the decoder reads from a word encodes to that word, its destinations are different, and its payload is the one
the word owns. -/
theorem decode_eq_ok {w : Word} {p : Payload} {i : Instr} (h : decode w p = .ok i) :
    encodeWord i = w ∧ distinctDests i = true ∧ payloadOf i = if opcodeByte w = 0x10 then p else .empty := by
  rcases decode_cases w p with ⟨ho, hd⟩ | ⟨ho, hd⟩ | ⟨ho, hd⟩ | ⟨ho, hd⟩ | ⟨ho, hd⟩ | ⟨ho, hd⟩ | ⟨ho, hd⟩ |
    ⟨ho, hd⟩ | ⟨ho, hd⟩ | ⟨ho, hd⟩ | ⟨ho, hd⟩ | ⟨ho, hd⟩ | ⟨ho, hd⟩ | ⟨-, hd⟩ <;> rw [hd] at h
  -- The row of `RDSR`, which looks its register up; the opcode bytes of no row; and the other twelve rows, where the
  -- opcode byte and the register fields add up to the word because the fields between them are zero.
  case inr.inr.inl =>
    obtain ⟨hz, sr, rfl, hsr⟩ := decodeRdsr_eq_ok h
    refine ⟨BitVec.eq_of_toNat_eq ?_, rfl, by simp [payloadOf, ho]⟩
    simp only [opcodeByte, field] at ho hz hsr
    simp only [encodeWord, BitVec.toNat_ofNat, ← hsr]
    omega
  case inr.inr.inr.inr.inr.inr.inr.inr.inr.inr.inr.inr.inr => simp at h
  all_goals
    obtain ⟨hz, hdist, rfl⟩ := accept_eq_ok.mp h
    refine ⟨BitVec.eq_of_toNat_eq ?_, hdist, by simp [payloadOf, ho]⟩
    have := w.isLt
    simp only [Bool.and_eq_true, decide_eq_true_eq] at hz
    simp only [opcodeByte, field] at ho hz
    simp only [encodeWord, packR_toNat, regField_val, field, BitVec.ofNat_eq_ofNat, BitVec.toNat_ofNat, Nat.reduceLT,
      Fin.val_zero]
    omega

/-- A command is well formed when its destinations are different and its payload is one a header can count. -/
theorem wellFormed_of_command {i : Instr} (hd : distinctDests i = true) (hc : i.command.wellFormed = true) :
    i.wellFormed = true := by
  cases i with
  | ldi rd p => exact (if_pos (opcodeByte_encodeWord (.ldi rd p))).symm.trans hc
  | _ => exact hd

/-! ### The obligations about the word stream -/

/-- Settles O8: a command is its word, or its word, its header and the limbs that the header counts. -/
theorem cutDependsOnOpcodeAndHeaderOnly : Obligations.CutDependsOnOpcodeAndHeaderOnly :=
  ⟨fun _ _ => rfl, fun _ ws hw => cut_one_word hw ws, fun _ _ _ rest hw hl => cut_with_payload hw hl rest⟩

/-- Settles O1: the encoder's words are those of a well-formed command, which the cut takes whole, and the decoder reads
back every field the encoder has written. -/
theorem decodeOfEncodeIsTheCommand : Obligations.DecodeOfEncodeIsTheCommand := by
  intro i rest hi
  refine ⟨?_, decode_encodeWord (wellFormed_distinct hi)⟩
  rw [← command_words]
  exact cut_words_append (command_wellFormed hi) rest

/-- Settles O2: the stream begins with the words of what is cut from it, and those are the words of the command that the
decoder reads. -/
theorem decodedStreamIsTheEncoding : Obligations.DecodedStreamIsTheEncoding := by
  intro ws rest w p i hcut hdec
  obtain ⟨hwf, rfl⟩ := words_of_cut hcut
  obtain ⟨hword, hdist, hpay⟩ := decode_eq_ok hdec
  have hcmd : i.command = ⟨w, p⟩ := by
    by_cases ho : opcodeByte w = 0x10
    · simp [Instr.command, hword, hpay, ho]
    · have hp : p = .empty := by simpa [Command.wellFormed, ho] using hwf
      simp [Instr.command, hword, hpay, ho, hp]
  refine ⟨wellFormed_of_command hdist (hcmd ▸ hwf), hword, ?_⟩
  rw [← hcmd, command_words]

end Sys2Proof
end

section
/-! PROOFS. The channels and the engine (20_memory.md): a step takes the words of the first command and answers once, what
a command does depends on neither channel, and the ports move words only. -/

namespace Sys2Proof.Machine

/-! ### A command and the channels (R53, R59) -/

/-- The state with the words `c` in its command channel and the words `q` in front of its response channel. -/
def withChannels (c q : List Word) (s : State) : State := { s with cmd := c, rsp := q ++ s.rsp }

theorem writeAll_withChannels (c q : List Word) (ws : List (Reg × Int)) (s : State) :
    writeAll ws (withChannels c q s) = withChannels c q (writeAll ws s) := by
  induction ws generalizing s with
  | nil => rfl
  | cons p ws ih => exact ih (writeReg p.1 p.2 s)

theorem respond_withChannels (c q : List Word) (code : BitVec 4) (pl : List Word) (s : State) :
    respond code pl (withChannels c q s) = withChannels c q (respond code pl s) := by
  simp [respond, withChannels]

theorem takeFault_withChannels (c q : List Word) (e : CmdFault) (w : Word) (s : State) :
    takeFault e w (withChannels c q s) = withChannels c q (takeFault e w s) :=
  respond_withChannels c q (faultCode e) [] { s with err := true, errCode := faultCode e, errCmd := w }

theorem dropBlocked_withChannels (c q : List Word) (s : State) :
    dropBlocked (withChannels c q s) = withChannels c q (dropBlocked s) :=
  respond_withChannels c q blockedCode [] { s with lost := true }

theorem acknowledge_withChannels (c q : List Word) (s : State) :
    acknowledge (withChannels c q s) = withChannels c q (acknowledge s) :=
  respond_withChannels c q okCode [] { s with err := false, lost := false, errCode := 0, errCmd := 0 }

theorem finish_withChannels (c q : List Word) (w : Word) (r : Except CmdFault Result) (s : State) :
    finish w r (withChannels c q s) = withChannels c q (finish w r s) := by
  cases r with
  | error e => exact takeFault_withChannels c q e w s
  | ok res =>
    simp only [finish, writeAll_withChannels, respond_withChannels, takeFault_withChannels]
    split <;> rfl

theorem runCommand_withChannels (c q : List Word) (i : Instr) (r : Except CmdFault Result) (s : State) :
    runCommand i r (withChannels c q s) = withChannels c q (runCommand i r s) := by
  have herr : (withChannels c q s).err = s.err := rfl
  simp only [runCommand, herr, dropBlocked_withChannels, finish_withChannels, takeFault_withChannels]
  split
  · rfl
  · split <;> rfl

theorem execIllegal_withChannels (c q : List Word) (w : Word) (s : State) :
    execIllegal w (withChannels c q s) = withChannels c q (execIllegal w s) := by
  have herr : (withChannels c q s).err = s.err := rfl
  simp only [execIllegal, herr, dropBlocked_withChannels, takeFault_withChannels]
  split <;> rfl

/-- The steps 3 to 6 of R229 read registers only, so for every command the frame alone meets the channels. -/
theorem exec_withChannels (c q : List Word) (i : Instr) (s : State) :
    exec i (withChannels c q s) = withCmd c (behind q (exec i s)) := by
  cases i with
  | ack => exact congrArg _ (acknowledge_withChannels c q s)
  | rdsr sr =>
    have hread : readSysReg sr (withChannels c q s) = readSysReg sr s := by cases sr <;> rfl
    simp only [exec, execRdsr, hread, respond_withChannels]
    rfl
  | readout rs1 =>
    have hlong : readTooLong rs1 (withChannels c q s) = readTooLong rs1 s := rfl
    have herr : (withChannels c q s).err = s.err := rfl
    simp only [exec, execRd, hlong, herr]
    split
    · rfl
    · exact congrArg _ (runCommand_withChannels c q _ _ s)
  | _ => exact congrArg _ (runCommand_withChannels c q _ _ s)

/-- What a command of the channel does, legal or illegal, depends on neither channel. -/
theorem execCommand_withChannels (c q : List Word) (cmd : Command) (s : State) :
    execCommand cmd (withChannels c q s) = withCmd c (behind q (execCommand cmd s)) := by
  unfold execCommand
  cases decode cmd.word cmd.payload with
  | ok i => exact exec_withChannels c q i s
  | error e => exact congrArg _ (execIllegal_withChannels c q cmd.word s)

/-- A command of the channel does with other words in the channels what it does without them. -/
theorem execCommand_withChannels_eq_next {c q : List Word} {cmd : Command} {s t : State} :
    execCommand cmd (withChannels c q s) = .next t ↔ ∃ u, execCommand cmd s = .next u ∧ t = withChannels c q u := by
  rw [execCommand_withChannels]
  cases execCommand cmd s with
  | next u =>
    simp only [behind, withCmd, Host.Outcome.next.injEq, exists_eq_left']
    exact eq_comm
  | fault f => simp [behind, withCmd]
  | refused f => simp [behind, withCmd]

/-- A command of the channel, legal or illegal, takes nothing more from the command channel. -/
theorem execCommand_cmd_eq {cmd : Command} {s t : State} (h : execCommand cmd s = .next t) : t.cmd = s.cmd := by
  obtain ⟨i, -, hx⟩ | ⟨_, -, hx⟩ := execCommand_cases cmd s <;> rw [hx] at h
  · exact exec_cmd_eq h
  · cases h
    unfold execIllegal
    split <;> rfl

/-- Settles O13. -/
theorem execDependsOnNeitherChannel : Obligations.ExecDependsOnNeitherChannel :=
  fun i s c q => exec_withChannels c q i s

/-- Settles O47: with `ERR` and `LOST` as before no fault was taken, a dropped command found `LOST` set already, and a
completed one has no destinations. -/
theorem readsHaveNoSideEffect : Obligations.ReadsHaveNoSideEffect := by
  intro i s t hi h herr hlost
  have hdests : i.dests = [] := by
    obtain rfl | ⟨_, rfl⟩ | ⟨_, rfl⟩ := hi <;> rfl
  obtain ⟨rfl, -⟩ | ⟨sr, -, hx⟩ | ⟨_, -, -, -, hx⟩ | ⟨-, -, r, ⟨hok, -⟩, hx⟩ := exec_shape i s
  · simp at hi
  · cases hx.symm.trans h
    exact ⟨_, rfl⟩
  · cases hx.symm.trans h
  · cases hx.symm.trans h
    obtain ⟨-, hr⟩ | ⟨he, e, hr, -⟩ | ⟨-, -, res, hres, -, hr⟩ := runCommand_cases i r s <;> rw [hr] at herr hlost ⊢
    · refine ⟨s.rsp ++ [BitVec.ofNat 32 blockedCode.toNat], ?_⟩
      rw [dropBlocked_lost] at hlost
      simp [dropBlocked, respond, hlost]
    · rw [takeFault_err, he] at herr
      cases herr
    · obtain ⟨hw, -⟩ := hok res hres
      rw [hdests, List.map_eq_nil_iff] at hw
      rw [hw]
      exact ⟨_, rfl⟩

/-! ### One response for every step (R57) -/

/-- The codes a response can have (R221, R234). -/
def responseCodes : List (BitVec 4) := [0, 1, 2, 5, 6, 7, 8]

theorem faultCode_mem_responseCodes (e : CmdFault) : faultCode e ∈ responseCodes := by cases e <;> decide

/-- What a command appends to the response channel: a status word, and a payload only for `RD` and `RDSR` after code 0. -/
theorem exec_rsp {i : Instr} {s t : State} (h : exec i s = .next t) :
    ∃ (c : BitVec 4) (pl : List Word), t.rsp = s.rsp ++ BitVec.ofNat 32 c.toNat :: pl ∧ c ∈ responseCodes ∧
      (pl ≠ [] → c = 0 ∧ ((∃ r, i = .readout r) ∨ ∃ sr, i = .rdsr sr)) := by
  obtain ⟨-, hx⟩ | ⟨sr, hi, hx⟩ | ⟨_, -, -, -, hx⟩ | ⟨-, -, r, ⟨hok, -⟩, hx⟩ := exec_shape i s <;>
    cases hx.symm.trans h
  · exact ⟨okCode, [], acknowledge_rsp s, by decide, fun hne => absurd rfl hne⟩
  · exact ⟨okCode, _, respond_rsp .., by decide, fun _ => ⟨rfl, .inr ⟨sr, hi⟩⟩⟩
  · obtain ⟨-, hr⟩ | ⟨-, e, hr, -⟩ | ⟨-, -, res, hres, -, hr⟩ := runCommand_cases i r s <;> rw [hr]
    · exact ⟨blockedCode, [], dropBlocked_rsp s, by decide, fun hne => absurd rfl hne⟩
    · exact ⟨faultCode e, [], takeFault_rsp .., faultCode_mem_responseCodes e, fun hne => absurd rfl hne⟩
    · refine ⟨okCode, res.payload, by simp, by decide, fun hne => ⟨rfl, .inl ?_⟩⟩
      exact (hok res hres).2.resolve_left hne

theorem execIllegal_rsp (w : Word) (s : State) :
    ∃ c ∈ responseCodes, (execIllegal w s).rsp = s.rsp ++ [BitVec.ofNat 32 c.toNat] := by
  unfold execIllegal
  split
  · exact ⟨blockedCode, by decide, dropBlocked_rsp s⟩
  · exact ⟨_, faultCode_mem_responseCodes .illegalCommand, takeFault_rsp ..⟩

/-- What a command of the channel, legal or illegal, appends to the response channel. -/
theorem execCommand_rsp {cmd : Command} {s t : State} (h : execCommand cmd s = .next t) :
    ∃ (c : BitVec 4) (pl : List Word), t.rsp = s.rsp ++ BitVec.ofNat 32 c.toNat :: pl ∧ c ∈ responseCodes ∧
      (pl ≠ [] → c = 0) := by
  obtain ⟨i, -, hx⟩ | ⟨_, -, hx⟩ := execCommand_cases cmd s <;> rw [hx] at h
  · obtain ⟨c, pl, hrsp, hc, hpl⟩ := exec_rsp h
    exact ⟨c, pl, hrsp, hc, fun hne => (hpl hne).1⟩
  · cases h
    obtain ⟨c, hc, hrsp⟩ := execIllegal_rsp cmd.word s
    exact ⟨c, [], hrsp, hc, fun hne => absurd rfl hne⟩

/-- Settles O19: a step appends what its command appends, and `RD` and `RDSR` alone append a payload. -/
theorem everyStepGivesExactlyOneResponse : Obligations.EveryStepGivesExactlyOneResponse := by
  refine ⟨fun s t h => ?_, fun i s t h hrd hrdsr => ?_, fun s w ws h => ?_⟩
  · obtain ⟨w, p, rest, -, -, hx⟩ := step_next h
    exact execCommand_rsp (s := consume rest s) hx
  · obtain ⟨c, pl, hrsp, hc, hpl⟩ := exec_rsp h
    have hnil : pl = [] := by
      by_contra hne
      obtain ⟨-, ⟨r, hr⟩ | ⟨sr, hsr⟩⟩ := hpl hne
      · exact hrd r hr
      · exact hrdsr sr hsr
    exact ⟨c, hnil ▸ hrsp, hc⟩
  · simp [hostTake, h]

/-! ### When the engine steps and when it holds (R53, R59, R60) -/

/-- With room in the response queue a step executes the command at the head of the command channel. -/
theorem step_of_cut {s : State} {w : Word} {p : Payload} {rest : List Word} (hc : cut s.cmd = .ready w p rest)
    (hf : rspFull s = false) : step s = execCommand ⟨w, p⟩ (consume rest s) := by
  simp [step, fetch, hc, hf]

/-- Settles O9. -/
theorem stepRunsTheDecodedCommand : Obligations.StepRunsTheDecodedCommand := by
  intro s w p rest i hc hf hd
  rw [step_of_cut hc hf]
  simp [execCommand, hd, consume]

/-- A command has a next state or is refused: it never stops the engine with a fault of the model. -/
theorem execCommand_ne_fault (cmd : Command) (s : State) (f : Fault) : execCommand cmd s ≠ .fault f := by
  obtain ⟨i, -, hx⟩ | ⟨_, -, hx⟩ := execCommand_cases cmd s <;> rw [hx]
  · obtain ⟨-, hx⟩ | ⟨_, -, hx⟩ | ⟨_, -, -, -, hx⟩ | ⟨-, -, _, -, hx⟩ := exec_shape i s <;> simp [hx]
  · simp

theorem step_eq_idle_iff (s : State) : step s = .fault .idle ↔ cut s.cmd = .idle := by
  obtain ⟨hc, hs⟩ | ⟨hc, hs⟩ | ⟨w, p, rest, hc, ⟨-, hs⟩ | ⟨-, hs⟩⟩ := step_cases s <;>
    simp [hc, hs, execCommand_ne_fault]

theorem step_eq_incompleteCommand_iff (s : State) :
    step s = .fault .incompleteCommand ↔ cut s.cmd = .incomplete := by
  obtain ⟨hc, hs⟩ | ⟨hc, hs⟩ | ⟨w, p, rest, hc, ⟨-, hs⟩ | ⟨-, hs⟩⟩ := step_cases s <;>
    simp [hc, hs, execCommand_ne_fault]

theorem step_eq_responseFull_iff (s : State) :
    step s = .fault .responseFull ↔ rspFull s = true ∧ ∃ w p rest, cut s.cmd = .ready w p rest := by
  obtain ⟨hc, hs⟩ | ⟨hc, hs⟩ | ⟨w, p, rest, hc, ⟨hf, hs⟩ | ⟨hf, hs⟩⟩ := step_cases s <;>
    simp [*, execCommand_ne_fault]

theorem foldl_hostSend (ws : List Word) (s : State) :
    ws.foldl (fun u w => hostSend w u) s = { s with cmd := s.cmd ++ ws } := by
  induction ws generalizing s with
  | nil => simp
  | cons w ws ih =>
    rw [List.foldl_cons, ih]
    simp [hostSend]

/-- Settles O11: the three faults are the three outcomes of the cut, the last one with the queue full; and a whole command
stays whole when further words arrive. -/
theorem stepHoldsExactlyInThreeSituations : Obligations.StepHoldsExactlyInThreeSituations := by
  intro s
  refine ⟨?_, ?_, ?_, fun ws h => ?_⟩
  · rw [step_eq_idle_iff, cut_eq_idle_iff]
  · rw [step_eq_incompleteCommand_iff, cut_eq_incomplete_iff]
  · rw [step_eq_responseFull_iff, rspFull_iff]
  · obtain ⟨hfull, w, p, rest, hc⟩ := (step_eq_responseFull_iff s).mp h
    rw [foldl_hostSend, step_eq_responseFull_iff]
    exact ⟨hfull, w, p, rest ++ ws, cut_append hc ws⟩

/-! ### The ports (R51) -/

theorem hostSend_if (v : Bool) (w : Word) (s : State) :
    (if v then hostSend w s else s) = { s with cmd := s.cmd ++ if v then [w] else [] } := by
  cases v <;> simp [hostSend]

/-- Settles O15: each channel by its own handshake; the response channel has no oldest word to lose when it is empty. -/
theorem portCycleMovesWordsOnly : Obligations.PortCycleMovesWordsOnly := by
  intro l s hl
  simp only [portCycle, hl, if_true, hostSend_if]
  by_cases hr : s.rsp = []
  · simp [rspValid, hr]
  · cases l.rspReady <;> simp [rspValid, hr]

end Sys2Proof.Machine
end

section
/-! PROOFS. Runs (R258): whatever the order of sends, takes and steps, the engine has executed a list of commands one
after the other, and their words are what the host has sent and the channel no longer holds. -/

namespace Sys2Proof.Machine

/-- The state of a run as if the host had taken no response word and the command channel held nothing: sends and takes
leave it as it is. -/
def Run.settled (r : Run) : State := { r.state with cmd := [], rsp := r.taken ++ r.state.rsp }

/-- From the run `r` to the run `q` the engine has executed the commands `cs`, and of the words that waited and those
sent since, only the words of `cs` have left the command channel. -/
def Run.Executes (cs : List Command) (r q : Run) : Prop :=
  (∀ c ∈ cs, c.wellFormed = true) ∧ execAll cs r.settled = .next q.settled ∧ q.executed = r.executed + cs.length ∧
    ∃ more, q.sent = r.sent ++ more ∧ r.state.cmd ++ more = cs.flatMap Command.words ++ q.state.cmd

theorem settled_eq_withChannels (r : Run) : r.settled = withChannels [] r.taken r.state := rfl

theorem settled_start {s : State} (h : s.cmd = []) : (Run.start s).settled = s := by
  cases s
  cases h
  rfl

/-! ### What a run executes -/

theorem execAll_append (cs ds : List Command) (s t : State) (h : execAll cs s = .next t) :
    execAll (cs ++ ds) s = execAll ds t := by
  induction cs generalizing s with
  | nil => cases h; rfl
  | cons c cs ih =>
    simp only [execAll, List.cons_append] at h ⊢
    cases hx : execCommand c s with
    | next u => rw [hx] at h; exact ih u h
    | fault f => rw [hx] at h; cases h
    | refused f => rw [hx] at h; cases h

theorem execAll_singleton (c : Command) (s : State) : execAll [c] s = execCommand c s := by
  simp only [execAll]
  cases execCommand c s <;> rfl

theorem run_executes_refl (r : Run) : Run.Executes [] r r := ⟨by simp, rfl, rfl, [], by simp⟩

theorem run_executes_trans {cs ds : List Command} {r q u : Run} (h : Run.Executes cs r q) (h' : Run.Executes ds q u) :
    Run.Executes (cs ++ ds) r u := by
  obtain ⟨hwf, hx, hn, m, hsent, hcmd⟩ := h
  obtain ⟨hwf', hx', hn', m', hsent', hcmd'⟩ := h'
  refine ⟨fun c hc => (List.mem_append.mp hc).elim (hwf c) (hwf' c), ?_, ?_, m ++ m', ?_, ?_⟩
  · rw [execAll_append cs ds _ _ hx, hx']
  · rw [hn', hn, List.length_append, Nat.add_assoc]
  · rw [hsent', hsent, List.append_assoc]
  · rw [← List.append_assoc, hcmd, List.append_assoc, hcmd', List.flatMap_append, List.append_assoc]

/-- A step of the engine executes the command at the head of the command channel. -/
theorem run_executes_of_step {r : Run} {t : State} (h : step r.state = .next t) :
    ∃ c, Run.Executes [c] r { r with state := t, executed := r.executed + 1 } := by
  obtain ⟨w, p, rest, hc, -, hx⟩ := step_next h
  obtain ⟨hwf, hwords⟩ := words_of_cut hc
  have hcmd : t.cmd = rest := execCommand_cmd_eq hx
  refine ⟨⟨w, p⟩, by simpa using hwf, ?_, rfl, [], by simp, by simpa [hcmd] using hwords⟩
  rw [execAll_singleton]
  exact execCommand_withChannels_eq_next (s := consume rest r.state).mpr ⟨t, hx, rfl⟩

/-- Every event executes a command or none (R53, R60). -/
theorem run_executes_of_next {e : Event} {r q : Run} (h : Run.next e r = some q) : ∃ cs, Run.Executes cs r q := by
  obtain ⟨w, -, rfl⟩ | ⟨w, ws, -, hr, rfl⟩ | ⟨t, -, hs, rfl⟩ := run_next_cases h
  · exact ⟨[], by simp, rfl, rfl, [w], rfl, by simp⟩
  · refine ⟨[], by simp, ?_, rfl, [], by simp, by simp⟩
    simp [execAll, Run.settled, hr]
  · obtain ⟨c, hc⟩ := run_executes_of_step hs
    exact ⟨[c], hc⟩

theorem run_executes_of_play {es : List Event} {r q : Run} (h : Run.play es r = some q) : ∃ cs, Run.Executes cs r q := by
  induction es generalizing r with
  | nil =>
    cases h
    exact ⟨[], run_executes_refl _⟩
  | cons e es ih =>
    rw [run_play_cons, Option.bind_eq_some_iff] at h
    obtain ⟨u, hu, hq⟩ := h
    obtain ⟨cs, hcs⟩ := run_executes_of_next hu
    obtain ⟨ds, hds⟩ := ih hq
    exact ⟨cs ++ ds, run_executes_trans hcs hds⟩

/-- An ended run has executed the commands it was given: their number tells where the words of the last one end. -/
theorem ended_run_executes {cs : List Command} {s : State} {es : List Event} {r : Run}
    (hwf : ∀ c ∈ cs, c.wellFormed = true) (hs : s.cmd = []) (hplay : Run.play es (Run.start s) = some r)
    (hend : r.Ended cs) : execAll cs s = .next r.settled ∧ r.state.cmd = [] := by
  obtain ⟨hsent, hn, -⟩ := hend
  obtain ⟨ds, hds, hx, hn', more, hmore, hcmd⟩ := run_executes_of_play hplay
  rw [run_start_state, hs, List.nil_append] at hcmd
  rw [run_start_sent, List.nil_append] at hmore
  rw [run_start_executed, Nat.zero_add] at hn'
  obtain ⟨rfl, hempty⟩ := flatMap_words_inj hwf hds (hn'.symm.trans hn) ((hsent.symm.trans hmore).trans hcmd)
  rw [settled_start hs] at hx
  exact ⟨hx, hempty⟩

/-- The response channel gains the responses, one after the other. -/
theorem execAll_rsp {cs : List Command} {s t : State} (h : execAll cs s = .next t) :
    t.rsp = s.rsp ++ (responsesOf cs s).flatten := by
  induction cs generalizing s with
  | nil => cases h; simp [responsesOf]
  | cons c cs ih =>
    simp only [execAll, responsesOf] at h ⊢
    cases hx : execCommand c s with
    | next u =>
      rw [hx] at h
      obtain ⟨code, pl, hrsp, -, -⟩ := execCommand_rsp hx
      simp [ih h, hrsp]
    | fault f => rw [hx] at h; cases h
    | refused f => rw [hx] at h; cases h

/-! ### A run for every list of commands -/

/-- The host takes every word that waits. -/
theorem play_take_all (r : Run) :
    Run.play (List.replicate r.state.rsp.length .take) r =
      some { r with state := { r.state with rsp := [] }, taken := r.taken ++ r.state.rsp } := by
  obtain ⟨s, sent, taken, n⟩ := r
  obtain ⟨regs, err, lost, code, w, cmd, rsp⟩ := s
  induction rsp generalizing taken with
  | nil => simp [Run.play]
  | cons w ws ih =>
    rw [List.length_cons, List.replicate_succ, run_play_cons]
    simpa [Run.next, hostTake] using ih (taken ++ [w])

/-- The host sends words one after the other. -/
theorem play_send_all (ws : List Word) (r : Run) :
    Run.play (ws.map .send) r =
      some { r with state := { r.state with cmd := r.state.cmd ++ ws }, sent := r.sent ++ ws } := by
  induction ws generalizing r with
  | nil => simp [Run.play]
  | cons w ws ih =>
    rw [List.map_cons, run_play_cons]
    simp [Run.next, hostSend, ih]

/-- With the command channel empty, the host takes what waits and sends one command, and the engine executes it. -/
theorem exists_play_command {c : Command} {r : Run} {t : State} (hc : c.wellFormed = true) (hcmd : r.state.cmd = [])
    (hx : execCommand c r.settled = .next t) :
    ∃ es q, Run.play es r = some q ∧ q.settled = t ∧ q.state.cmd = [] ∧ q.sent = r.sent ++ c.words ∧
      q.executed = r.executed + 1 := by
  have hsettled : r.settled = withChannels [] (r.taken ++ r.state.rsp) (consume [] { r.state with rsp := [] }) := by
    simp [Run.settled, withChannels, consume]
  rw [hsettled, execCommand_withChannels_eq_next] at hx
  obtain ⟨u, hu, rfl⟩ := hx
  have hcut : cut (r.state.cmd ++ c.words) = .ready c.word c.payload [] := by
    simpa [hcmd] using cut_words_append hc []
  have hstep : step { r.state with cmd := r.state.cmd ++ c.words, rsp := [] } = .next u :=
    (step_of_cut hcut (rspFull_of_nil rfl)).trans hu
  refine ⟨List.replicate r.state.rsp.length .take ++ (c.words.map .send ++ [.engine]),
    ⟨u, r.sent ++ c.words, r.taken ++ r.state.rsp, r.executed + 1⟩, ?_, rfl, execCommand_cmd_eq hu, rfl, rfl⟩
  rw [run_play_append, play_take_all, Option.bind_some, run_play_append, play_send_all, Option.bind_some]
  simp [Run.play, Run.next, hstep]

theorem exists_play_commands {cs : List Command} {r : Run} {t : State} (hwf : ∀ c ∈ cs, c.wellFormed = true)
    (hcmd : r.state.cmd = []) (hx : execAll cs r.settled = .next t) :
    ∃ es q, Run.play es r = some q ∧ q.sent = r.sent ++ cs.flatMap Command.words ∧
      q.executed = r.executed + cs.length ∧ q.state.rsp = [] := by
  induction cs generalizing r with
  | nil => exact ⟨_, _, play_take_all r, by simp, rfl, rfl⟩
  | cons c cs ih =>
    simp only [execAll] at hx
    cases hc : execCommand c r.settled with
    | next u =>
      rw [hc] at hx
      obtain ⟨es, q, hplay, rfl, hq, hsent, hn⟩ := exists_play_command (hwf c List.mem_cons_self) hcmd hc
      obtain ⟨es', q', hplay', hsent', hn', hrsp⟩ := ih (fun d hd => hwf d (List.mem_cons_of_mem _ hd)) hq hx
      refine ⟨es ++ es', q', ?_, ?_, ?_, hrsp⟩
      · rw [run_play_append, hplay]
        exact hplay'
      · rw [hsent', hsent, List.flatMap_cons, List.append_assoc]
      · rw [hn', hn, List.length_cons, Nat.add_assoc, Nat.add_comm 1]
    | fault f => rw [hc] at hx; cases hx
    | refused f => rw [hc] at hx; cases hx

/-- Settles O12: an ended run has executed the list, and taking, sending and executing command by command ends. -/
theorem runIsExecFoldedOverTheCommands : Obligations.RunIsExecFoldedOverTheCommands := by
  constructor
  · intro cs s es r hwf hs hplay hend
    obtain ⟨hx, hcmd⟩ := ended_run_executes hwf hs hplay hend
    have hsettled : r.settled = { r.state with rsp := r.taken } := by
      simp [Run.settled, hend.2.2, hcmd]
    rw [hsettled] at hx
    exact ⟨hx, hcmd, execAll_rsp hx⟩
  · intro cs s t hwf hs hx
    rw [← settled_start hs] at hx
    obtain ⟨es, q, hplay, hsent, hn, hrsp⟩ := exists_play_commands hwf hs hx
    exact ⟨es, q, hplay, by simpa using hsent, by simpa using hn, hrsp⟩

end Sys2Proof.Machine
end

section
/-! PROOFS. The serial form of an integer (R54, R55): the weighted sum of the limbs, and the canonical form. -/

namespace Sys2Proof.Machine

/-- A header's bit 31 is its sign and its bits 30:0 are its count (R54). -/
theorem header_fields_eq (h : Word) :
    headerSign h = decide (2 ^ 31 ≤ h.toNat) ∧ headerCount h = h.toNat % 2 ^ 31 := by
  have := h.isLt
  refine ⟨decide_eq_decide.mpr ?_, ?_⟩ <;> simp only [headerCount, field] <;> omega

/-- A magnitude is the sum of its limbs, each at its weight (R54). -/
theorem magnitude_eq_sum (ws : List Word) :
    magnitude ws = ((List.range ws.length).map fun j => (ws.getD j 0).toNat * 2 ^ (32 * j)).sum := by
  induction ws with
  | nil => rfl
  | cons w ws ih =>
    have hshift : (fun j => (ws.getD j 0).toNat * 2 ^ (32 * (j + 1))) =
        fun j => 2 ^ 32 * ((ws.getD j 0).toNat * 2 ^ (32 * j)) := by
      funext j
      ring
    rw [magnitude, ih, List.length_cons, List.range_succ_eq_map, List.map_cons, List.map_map, List.sum_cons,
      ← List.sum_map_mul_left, ← hshift]
    simp [Function.comp_def]

/-- Settles O58. -/
theorem payloadValueIsTheWeightedSum : Obligations.PayloadValueIsTheWeightedSum := by
  refine ⟨fun w h ls rest hw hl => ?_, fun p => ?_⟩
  · obtain ⟨hsign, hcount⟩ := header_fields_eq h
    rw [← hsign]
    exact cut_with_payload hw (hl.trans hcount.symm) rest
  · have hsum : (magnitude p.limbs : Int) =
        ((List.range p.limbs.length).map fun j => ((p.limbs.getD j 0).toNat * 2 ^ (32 * j) : Int)).sum := by
      rw [magnitude_eq_sum, Nat.cast_list_sum, List.map_map]
      simp [Function.comp_def]
    rw [← hsum, payloadValue]
    split <;> simp

/-- The top limb of a magnitude that has one is not zero. -/
theorem top_limb_ne_zero {m n : Nat} (h : limbCount m = n + 1) : BitVec.ofNat 32 (m / 2 ^ (32 * n)) ≠ 0 := by
  have hlow : 2 ^ (32 * n) ≤ m := by
    by_contra hlt
    have := (bitLength_le_iff m (32 * n)).mpr (Nat.lt_of_not_le hlt)
    unfold limbCount at h
    omega
  have hpos : 0 < m / 2 ^ (32 * n) := Nat.div_pos hlow (by positivity)
  have hhigh : m / 2 ^ (32 * n) < 2 ^ 32 := by
    rw [Nat.div_lt_iff_lt_mul (by positivity), ← pow_add, show 32 + 32 * n = 32 * (n + 1) by ring, ← h]
    exact lt_two_pow_limbCount m
  intro h0
  have := congrArg BitVec.toNat h0
  rw [BitVec.toNat_ofNat, Nat.mod_eq_of_lt hhigh] at this
  simp only [BitVec.ofNat_eq_ofNat, BitVec.toNat_ofNat] at this
  omega

theorem lowLimbs_getLast?_ne_zero (m : Nat) : (lowLimbs (limbCount m) m).getLast? ≠ some 0 := by
  cases h : limbCount m with
  | zero => simp [lowLimbs]
  | succ n =>
    rw [lowLimbs_eq_map, List.range_succ, List.map_append, List.map_singleton, List.getLast?_concat]
    simpa using top_limb_ne_zero h

theorem headerWord_toNat (sign : Bool) {count : Nat} (h : count < 2 ^ 31) :
    (headerWord sign count).toNat = (if sign then 2 ^ 31 else 0) + count := by
  rw [headerWord, BitVec.toNat_ofNat, Nat.mod_eq_of_lt]
  split <;> omega

theorem payloadValue_canonicalPayload (v : Int) : payloadValue (canonicalPayload v) = v := by
  have hm : magnitude (canonicalPayload v).limbs = v.natAbs := by
    rw [canonicalPayload, magnitude_lowLimbs, Nat.mod_eq_of_lt (lt_two_pow_limbCount _)]
  have hs : (canonicalPayload v).sign = decide (v < 0) := rfl
  simp only [payloadValue, hm, hs, decide_eq_true_eq]
  split <;> omega

/-- Settles O59. -/
theorem canonicalFormReadsBack : Obligations.CanonicalFormReadsBack := by
  intro v
  refine ⟨lowLimbs_length _ _, lowLimbs_eq_map _ _, lowLimbs_getLast?_ne_zero _, rfl, fun hcount => ?_,
    payloadValue_canonicalPayload v⟩
  have hlen : (canonicalPayload v).limbs.length = limbCount v.natAbs := lowLimbs_length _ _
  refine ⟨_, rfl, ?_⟩
  rw [hlen, headerWord_toNat _ hcount]
  simp [canonicalPayload]

end Sys2Proof.Machine
end

section
/-! PROOFS. The encoding (30_encoding.md): the match and mask table against the decoder, the four reasons for which a word
is illegal, and the worked lines of assembler text. -/

namespace Sys2Proof

/-! ### Fields under a mask (R13, R85) -/

/-- The part of a mask that asks about one field: all its bits set. -/
def fieldMask (lo width : Nat) : Word := BitVec.ofNat 32 ((2 ^ width - 1) * 2 ^ lo)

theorem fieldMask_toNat {lo width : Nat} (h : lo + width ≤ 32) :
    (fieldMask lo width).toNat = (2 ^ width - 1) * 2 ^ lo := by
  rw [fieldMask, BitVec.toNat_ofNat, Nat.mod_eq_of_lt]
  calc (2 ^ width - 1) * 2 ^ lo < 2 ^ width * 2 ^ lo := by gcongr; exact Nat.sub_one_lt (by positivity)
    _ = 2 ^ (lo + width) := by rw [pow_add, Nat.mul_comm]
    _ ≤ 2 ^ 32 := Nat.pow_le_pow_right (by norm_num) h

/-- What is left of a word under the mask of a field is the field at its weight. -/
theorem and_fieldMask_toNat (w : Word) {lo width : Nat} (h : lo + width ≤ 32) :
    (w &&& fieldMask lo width).toNat = field w lo width * 2 ^ lo := by
  rw [BitVec.toNat_and, fieldMask_toNat h, field]
  apply Nat.eq_of_testBit_eq
  intro i
  rw [Nat.testBit_and, Nat.testBit_mul_two_pow, Nat.testBit_mul_two_pow, Nat.testBit_two_pow_sub_one,
    Nat.testBit_mod_two_pow, Nat.testBit_div_two_pow]
  by_cases hi : lo ≤ i
  · simp [hi, Bool.and_comm]
  · simp [hi]

theorem field_eq_zero_iff_and (w : Word) {lo width : Nat} (h : lo + width ≤ 32) :
    field w lo width = 0 ↔ w &&& fieldMask lo width = 0 := by
  simp [← BitVec.toNat_inj, and_fieldMask_toNat w h]

theorem opcodeByte_eq_iff_and (w v : Word) :
    opcodeByte w = opcodeByte v ↔ w &&& fieldMask 24 8 = v &&& fieldMask 24 8 := by
  rw [← BitVec.toNat_inj, and_fieldMask_toNat w (by decide), and_fieldMask_toNat v (by decide), opcodeByte, opcodeByte]
  omega

/-- A word is its opcode byte and its other 24 bits. -/
theorem word_eq_iff (w v : Word) :
    w = v ↔ w &&& fieldMask 24 8 = v &&& fieldMask 24 8 ∧ w &&& fieldMask 0 24 = v &&& fieldMask 0 24 := by
  refine ⟨by rintro rfl; exact ⟨rfl, rfl⟩, fun ⟨hhigh, hlow⟩ => ?_⟩
  have hall : fieldMask 24 8 ||| fieldMask 0 24 = BitVec.allOnes 32 := by decide
  rw [← BitVec.and_allOnes (x := w), ← BitVec.and_allOnes (x := v), ← hall, BitVec.and_or_distrib_left,
    BitVec.and_or_distrib_left, hhigh, hlow]

/-- The mask of a list of fields. -/
def fieldsMask (fs : List (Nat × Nat)) : Word := fs.foldr (fun f m => fieldMask f.1 f.2 ||| m) 0

theorem and_fieldsMask_eq_zero_iff (w : Word) {fs : List (Nat × Nat)} (h : ∀ f ∈ fs, f.1 + f.2 ≤ 32) :
    w &&& fieldsMask fs = 0 ↔ ∀ f ∈ fs, field w f.1 f.2 = 0 := by
  induction fs with
  | nil => simp [fieldsMask]
  | cons f fs ih =>
    obtain ⟨hf, hfs⟩ := List.forall_mem_cons.mp h
    have hor : w &&& fieldsMask (f :: fs) = w &&& fieldMask f.1 f.2 ||| w &&& fieldsMask fs :=
      BitVec.and_or_distrib_left
    rw [hor, List.forall_mem_cons, field_eq_zero_iff_and w hf, ← ih hfs]
    exact BitVec.or_eq_zero_iff

/-! ### The rows of the table (R85) -/

/-- Every row asks about the whole opcode byte, and of the other 24 bits it asks that some are zero. -/
theorem row_mask_value {row : Row} (h : row ∈ opcodeTable) :
    row.mask &&& fieldMask 24 8 = fieldMask 24 8 ∧ row.value &&& fieldMask 0 24 = 0 := by
  revert row
  decide

/-- A word fits a row when it has the row's opcode byte and zeros where the rest of the mask has ones. -/
theorem fits_iff_and {row : Row} (h : row ∈ opcodeTable) (w : Word) :
    row.fits w = true ↔ opcodeByte w = opcodeByte row.value ∧ w &&& (row.mask &&& fieldMask 0 24) = 0 := by
  obtain ⟨hmask, hvalue⟩ := row_mask_value h
  rw [Row.fits, decide_eq_true_eq, word_eq_iff, BitVec.and_assoc, BitVec.and_assoc, hmask, hvalue,
    opcodeByte_eq_iff_and]

/-- The same by fields, as the decoder asks for them. -/
theorem fits_iff_fields {row : Row} (h : row ∈ opcodeTable) {fs : List (Nat × Nat)} (hfs : ∀ f ∈ fs, f.1 + f.2 ≤ 32)
    (hmask : row.mask &&& fieldMask 0 24 = fieldsMask fs) (w : Word) :
    row.fits w = true ↔ opcodeByte w = opcodeByte row.value ∧ ∀ f ∈ fs, field w f.1 f.2 = 0 := by
  rw [fits_iff_and h, hmask, and_fieldsMask_eq_zero_iff w hfs]

theorem row_opcode_mem {row : Row} (h : row ∈ opcodeTable) : opcodeByte row.value ∈ opcodeBytes := by
  revert row
  decide

/-- The opcode byte tells the rows apart. -/
theorem row_eq_of_opcode_eq {r₁ r₂ : Row} (h₁ : r₁ ∈ opcodeTable) (h₂ : r₂ ∈ opcodeTable)
    (h : opcodeByte r₁.value = opcodeByte r₂.value) : r₁ = r₂ := by
  have hinj : ∀ r₁ ∈ opcodeTable, ∀ r₂ ∈ opcodeTable, opcodeByte r₁.value = opcodeByte r₂.value → r₁ = r₂ := by decide
  exact hinj r₁ h₁ r₂ h₂ h

/-- Settles O4: a word has one opcode byte, and no two rows have the same. -/
theorem opcodeTableRowsAreDisjoint : Obligations.OpcodeTableRowsAreDisjoint := by
  intro w r₁ h₁ r₂ h₂ hf₁ hf₂
  obtain ⟨ho₁, -⟩ := (fits_iff_and h₁ w).mp hf₁
  obtain ⟨ho₂, -⟩ := (fits_iff_and h₂ w).mp hf₂
  exact row_eq_of_opcode_eq h₁ h₂ (ho₁.symm.trans ho₂)

/-! ### The decoder by the rows of the table (R85, R86) -/

/-- The decoding of `RDSR`: a register that exists, an index above 3, or a set bit of 23:4. -/
theorem decodeRdsr_cases (w : Word) :
    (field w 4 20 = 0 ∧ field w 0 4 < 4 ∧ ∃ sr, decodeRdsr w = .ok (.rdsr sr)) ∨
    (field w 4 20 = 0 ∧ 4 ≤ field w 0 4 ∧ decodeRdsr w = .error .reservedSysReg) ∨
    (field w 4 20 ≠ 0 ∧ decodeRdsr w = .error .mustBeZero) := by
  unfold decodeRdsr
  split
  · next sr hsr =>
    have hlt : field w 0 4 < 4 := by rw [sysRegOf_eq_some.mp hsr]; cases sr <;> decide
    by_cases hz : field w 4 20 = 0
    · exact .inl ⟨hz, hlt, sr, by simp [hz, accept, distinctDests]⟩
    · exact .inr (.inr ⟨hz, by simp [hz, accept]⟩)
  · next hnone =>
    by_cases hz : field w 4 20 = 0
    · exact .inr (.inl ⟨hz, sysRegOf_eq_none.mp hnone, by simp [hz]⟩)
    · exact .inr (.inr ⟨hz, by simp [hz]⟩)

/-- The decoder treats the word `w`, which has the opcode byte of `row`, as the table does: if it fits the row, it is a
command of the row's mnemonic, but for the further constraint; otherwise it is illegal. -/
def DecodedByRow (row : Row) (w : Word) (p : Payload) : Prop :=
  opcodeByte w = opcodeByte row.value ∧
  (row.fits w = true → ∃ i, mnemonicOf i = row.mnemonic ∧ decode w p = accept true i) ∧
  (row.fits w = false → ∃ e, decode w p = .error e)

/-- A case of the decoder treats a word as the row with index `k` does, when the fields `fs` that it wants zero are those
of the row's mask. -/
theorem decodedByRow_of_accept {w : Word} {p : Payload} {z : Bool} {i : Instr} (hd : decode w p = accept z i) (k : Nat)
    {row : Row} (hk : opcodeTable[k]? = some row) (ho : opcodeByte w = opcodeByte row.value)
    (hname : mnemonicOf i = row.mnemonic) (fs : List (Nat × Nat)) (hfs : ∀ f ∈ fs, f.1 + f.2 ≤ 32 := by decide)
    (hmask : row.mask &&& fieldMask 0 24 = fieldsMask fs := by decide)
    (hz : z = true ↔ ∀ f ∈ fs, field w f.1 f.2 = 0 := by simp) :
    ∃ row ∈ opcodeTable, DecodedByRow row w p := by
  have hmem : row ∈ opcodeTable := List.mem_of_getElem? hk
  have hfits : row.fits w = z := by
    rw [Bool.eq_iff_iff, fits_iff_fields hmem hfs hmask, hz, and_iff_right ho]
  refine ⟨row, hmem, ho, ?_⟩
  rw [hfits]
  exact ⟨fun h => ⟨i, hname, by rw [hd, h]⟩, fun h => ⟨.mustBeZero, by rw [hd, h]; rfl⟩⟩

theorem decodedByRow_of_rdsr {w : Word} {p : Payload} (ho : opcodeByte w = 0x02) (hd : decode w p = decodeRdsr w) :
    ∃ row ∈ opcodeTable, DecodedByRow row w p := by
  have hmem : ⟨"RDSR", 0x02000000, 0xFFFFFFFC⟩ ∈ opcodeTable := by decide
  have hindex : field w 2 2 = 0 ↔ field w 0 4 < 4 := by simp only [field]; omega
  have hfits := fits_iff_fields hmem (fs := [(4, 20), (2, 2)]) (by decide) (by decide) w
  rw [and_iff_right (show opcodeByte w = opcodeByte 0x02000000 from ho), List.forall_mem_cons, List.forall_mem_singleton,
    hindex] at hfits
  refine ⟨_, hmem, ho, ?_⟩
  rw [Bool.eq_false_iff, Ne, hfits, hd]
  rcases decodeRdsr_cases w with ⟨hz, hlt, sr, h⟩ | ⟨hz, hge, h⟩ | ⟨hz, h⟩
  · exact ⟨fun _ => ⟨.rdsr sr, rfl, h⟩, fun hn => absurd ⟨hz, hlt⟩ hn⟩
  · exact ⟨fun ⟨_, hlt⟩ => absurd hlt (by omega), fun _ => ⟨_, h⟩⟩
  · exact ⟨fun ⟨hz', _⟩ => absurd hz' hz, fun _ => ⟨_, h⟩⟩

/-- Every word is decoded by a row of the table, or its opcode byte is reserved. -/
theorem decode_by_row (w : Word) (p : Payload) :
    (∃ row ∈ opcodeTable, DecodedByRow row w p) ∨
    (opcodeByte w ∉ opcodeBytes ∧ decode w p = .error .reservedOpcode) := by
  rcases decode_cases w p with ⟨ho, hd⟩ | ⟨ho, hd⟩ | ⟨ho, hd⟩ | ⟨ho, hd⟩ | ⟨ho, hd⟩ | ⟨ho, hd⟩ | ⟨ho, hd⟩ |
    ⟨ho, hd⟩ | ⟨ho, hd⟩ | ⟨ho, hd⟩ | ⟨ho, hd⟩ | ⟨ho, hd⟩ | ⟨ho, hd⟩ | hreserved
  · exact .inl (decodedByRow_of_accept hd 0 rfl ho rfl [(0, 24)])
  · exact .inl (decodedByRow_of_accept hd 1 rfl ho rfl [(0, 24)])
  · exact .inl (decodedByRow_of_rdsr ho hd)
  · exact .inl (decodedByRow_of_accept hd 3 rfl ho rfl [(0, 20)])
  · exact .inl (decodedByRow_of_accept hd 4 rfl ho rfl [(16, 4)])
  · exact .inl (decodedByRow_of_accept hd 5 rfl ho rfl [(16, 8), (0, 12)])
  · exact .inl (decodedByRow_of_accept hd 6 rfl ho rfl [(16, 4), (0, 8)])
  · exact .inl (decodedByRow_of_accept hd 7 rfl ho rfl [(0, 8)])
  · exact .inl (decodedByRow_of_accept hd 8 rfl ho rfl [(4, 4)])
  · exact .inl (decodedByRow_of_accept hd 9 rfl ho rfl [(16, 4), (0, 8)])
  · exact .inl (decodedByRow_of_accept hd 10 rfl ho rfl [(16, 4), (0, 4)])
  · exact .inl (decodedByRow_of_accept hd 11 rfl ho rfl [(0, 12)])
  · exact .inl (decodedByRow_of_accept hd 12 rfl ho rfl [(16, 4)])
  · exact .inr hreserved

/-- Only three commands have destination fields that could be equal (R85). -/
theorem mnemonic_of_equal_dests {i : Instr} (h : distinctDests i = false) :
    mnemonicOf i ∈ ["DIV", "EGCD", "MRDEC"] := by
  cases i with
  | div | egcd | mrdec => simp [mnemonicOf]
  | _ => simp [distinctDests] at h

/-- Settles O3: the row that decodes a word is the only one that the word can fit, since its opcode byte is the word's. -/
theorem decoderAgreesWithTheOpcodeTable : Obligations.DecoderAgreesWithTheOpcodeTable := by
  intro w p
  rcases decode_by_row w p with ⟨row, hmem, ho, hfit, hunfit⟩ | ⟨ho, hd⟩
  · refine ⟨fun i hi => ?_, fun e he row' hmem' hfit' => ?_⟩
    · cases hf : row.fits w with
      | true =>
        obtain ⟨j, hname, hj⟩ := hfit hf
        obtain ⟨-, -, rfl⟩ := accept_eq_ok.mp (hj.symm.trans hi)
        exact ⟨row, hmem, hname.symm, hf⟩
      | false =>
        obtain ⟨e, he⟩ := hunfit hf
        cases hi.symm.trans he
    · obtain ⟨ho', -⟩ := (fits_iff_and hmem' w).mp hfit'
      obtain rfl := row_eq_of_opcode_eq hmem hmem' (ho.symm.trans ho')
      obtain ⟨j, hname, hj⟩ := hfit hfit'
      rcases accept_eq_error.mp (hj.symm.trans he) with ⟨h, -⟩ | ⟨-, hdist, rfl⟩
      · cases h
      · exact ⟨rfl, hname ▸ mnemonic_of_equal_dests hdist⟩
  · refine ⟨fun i hi => ?_, fun e _ row hmem hfit => ?_⟩
    · cases hi.symm.trans hd
    · obtain ⟨ho', -⟩ := (fits_iff_and hmem w).mp hfit
      exact absurd (ho' ▸ row_opcode_mem hmem) ho

/-! ### The four reasons of an illegal word (R88) -/

/-- Settles O7: for each opcode byte, the reasons for which its case of the decoder answers an error. -/
theorem illegalWordsAreTheFourCases : Obligations.IllegalWordsAreTheFourCases := by
  intro w p
  rcases decode_cases w p with ⟨ho, hd⟩ | ⟨ho, hd⟩ | ⟨ho, hd⟩ | ⟨ho, hd⟩ | ⟨ho, hd⟩ | ⟨ho, hd⟩ | ⟨ho, hd⟩ |
    ⟨ho, hd⟩ | ⟨ho, hd⟩ | ⟨ho, hd⟩ | ⟨ho, hd⟩ | ⟨ho, hd⟩ | ⟨ho, hd⟩ | ⟨ho, hd⟩ <;> rw [hd]
  -- The case of `RDSR`, the only one that can answer a reserved index; the opcode bytes of no row; and the other twelve
  -- cases, which are an `accept` and answer a set bit or, for three of them, equal destinations.
  case inr.inr.inl =>
    rcases decodeRdsr_cases w with ⟨hz, hlt, sr, h⟩ | ⟨hz, hge, h⟩ | ⟨hz, h⟩
    · simp [h, ho, hz, hlt]
    · simp [h, ho, hz, hge]
    · simp [h, ho, hz]
  case inr.inr.inr.inr.inr.inr.inr.inr.inr.inr.inr.inr.inr =>
    simp only [opcodeBytes, List.mem_cons, List.not_mem_nil, or_false, not_or] at ho
    simp [ho]
  all_goals
    simp [ho, accept_eq_error, distinctDests, Bool.and_eq_false_iff, -Bool.and_eq_false_imp, or_assoc]

end Sys2Proof

namespace Sys2Proof.Machine

/-! ### The worked lines of assembler text (R90, R92) -/

/-- Settles O6: the assembler evaluated on each line. -/
theorem workedTextAssembles : Obligations.WorkedTextAssembles := by
  unfold Obligations.WorkedTextAssembles
  decide

end Sys2Proof.Machine
end

section
/-! PROOFS. Data movement (40_data_movement.md): the two capacity tests against each other, what `LDI`, `LI` and `RD`
answer, the round trip, and when a command is refused. -/

namespace Sys2Proof.Machine

/-! ### Capacity in limbs (R9, R24, R55) -/

/-- `b` bits are within `MAXBITS` exactly if the limbs that hold them are within `MAXLIMBS`. -/
theorem admitsBits_eq_admitsLimbs (m : Limit) (b : Nat) :
    Limit.admitsBits m b = Limit.admitsLimbs m ((b + 31) / 32) := by
  cases m with
  | unbounded => rfl
  | limbs p =>
    refine decide_eq_decide.mpr ?_
    omega

/-- A value fits exactly if its canonical form has no more limbs than a register. -/
theorem fits_eq_admitsLimbs (v : Int) : fits v = Limit.admitsLimbs Config.maxLimbs (limbCount v.natAbs) :=
  (fits_eq v).trans (admitsBits_eq_admitsLimbs _ _)

theorem admitsLimbs_mono {m : Limit} {k n : Nat} (h : k ≤ n) (hn : Limit.admitsLimbs m n = true) :
    Limit.admitsLimbs m k = true := by
  cases m with
  | unbounded => rfl
  | limbs p => exact decide_eq_true (h.trans (of_decide_eq_true hn))

/-- A finite `MAXLIMBS` is below 2^24 (R9). -/
theorem lt_of_admitsLimbs {m : Limit} {n : Nat} (hm : m ≠ .unbounded) (h : Limit.admitsLimbs m n = true) :
    n < 2 ^ 24 := by
  cases m with
  | unbounded => exact absurd rfl hm
  | limbs p =>
    have hn : n ≤ p.val + 1 := of_decide_eq_true h
    omega

/-- The canonical form is the shortest: no list of limbs has the same magnitude in fewer (R55). -/
theorem limbCount_magnitude_le (ws : List Word) : limbCount (magnitude ws) ≤ ws.length := by
  have := (bitLength_le_iff _ _).mpr (magnitude_lt ws)
  unfold limbCount
  omega

/-- The value of a payload within the capacity fits a register, zero limbs at the top or not (R110). -/
theorem fits_payloadValue {p : Payload} (h : Limit.admitsLimbs Config.maxLimbs p.limbs.length = true) :
    fits (payloadValue p) = true := by
  rw [fits_eq_admitsLimbs, natAbs_payloadValue]
  exact admitsLimbs_mono (limbCount_magnitude_le _) h

@[simp] theorem canonicalPayload_length (v : Int) : (canonicalPayload v).limbs.length = limbCount v.natAbs :=
  lowLimbs_length _ _

/-! ### The frame of R229, with its next state written out -/

/-- A command that writes one value that fits. -/
theorem runCommand_write {i : Instr} {rd : Reg} {v : Int} {s : State} (h : s.err = false)
    (hd : distinctDests i = true) (hv : fits v = true) :
    runCommand i (.ok ⟨[(rd, v)], []⟩) s = { s with regs := s.regs.set rd (some v), rsp := s.rsp ++ [0] } :=
  runCommand_ok h hd (by simpa using hv)

/-- A command that writes nothing and answers a payload. -/
theorem runCommand_answer {i : Instr} {pl : List Word} {s : State} (h : s.err = false) (hd : distinctDests i = true) :
    runCommand i (.ok ⟨[], pl⟩) s = { s with rsp := s.rsp ++ 0 :: pl } :=
  runCommand_ok h hd (by simp)

/-- A command that raises a fault leaves what R226 says. -/
theorem runCommand_faulted {i : Instr} {e : CmdFault} {s : State} (h : s.err = false) (hd : distinctDests i = true) :
    runCommand i (.error e) s = faulted (faultCode e) i s :=
  runCommand_fault h hd

/-! ### `LDI` and `LI` (R110, R111) -/

theorem exec_ldi {s : State} {rd : Reg} {p : Payload} (h : s.err = false)
    (hp : Limit.admitsLimbs Config.maxLimbs p.limbs.length = true) :
    exec (.ldi rd p) s = .next { s with regs := s.regs.set rd (some (payloadValue p)), rsp := s.rsp ++ [0] } := by
  simp only [exec, execLdi, limbsFit_eq, hp, if_true]
  rw [runCommand_write h rfl (fits_payloadValue hp)]

theorem exec_ldi_too_long {s : State} {rd : Reg} {p : Payload} (h : s.err = false)
    (hp : Limit.admitsLimbs Config.maxLimbs p.limbs.length = false) :
    exec (.ldi rd p) s = .next (faulted 7 (.ldi rd p) s) := by
  simp only [exec, execLdi, limbsFit_eq, hp, Bool.false_eq_true, if_false]
  exact congrArg _ (runCommand_faulted h rfl)

/-- Settles O35: the limb count decides between the two outcomes. -/
theorem ldiLoadsThePayload : Obligations.LdiLoadsThePayload := by
  intro s rd p h
  refine ⟨exec_ldi h, ?_⟩
  cases hp : Limit.admitsLimbs Config.maxLimbs p.limbs.length with
  | true => exact .inl rfl
  | false => exact .inr (exec_ldi_too_long h hp)

/-- Sign extension takes 2^16 from an immediate whose top bit is set (R83). -/
theorem sext16_eq (imm : BitVec 16) :
    sext16 imm = if imm.toNat < 2 ^ 15 then (imm.toNat : Int) else imm.toNat - 2 ^ 16 := by
  rw [sext16, BitVec.toInt_eq_toNat_cond]
  split <;> split <;> omega

/-- Settles O36. -/
theorem liLoadsTheSignedImmediate : Obligations.LiLoadsTheSignedImmediate := by
  intro s rd imm h
  rw [← sext16_eq]
  exact congrArg _ (runCommand_write h rfl (fits_sext16 imm))

/-! ### `RD` (R112) -/

/-- `RD` refuses exactly the values of 2^31 - 1 limbs or more (U22). -/
theorem readTooLong_iff (r : Reg) (s : State) :
    readTooLong r s = true ↔ ∃ v, s.regs[r] = some v ∧ 2 ^ 31 - 1 ≤ limbCount v.natAbs := by
  unfold readTooLong
  cases s.regs[r] <;> simp

theorem exec_readout {s : State} {rs : Reg} {v : Int} (h : s.err = false) (hv : s.regs[rs] = some v)
    (hlt : limbCount v.natAbs < 2 ^ 31 - 1) :
    exec (.readout rs) s = .next { s with rsp := s.rsp ++ 0 :: payloadWords (canonicalPayload v) } := by
  have hshort : readTooLong rs s = false := by
    rw [Bool.eq_false_iff, Ne, readTooLong_iff]
    rintro ⟨w, hw, hle⟩
    cases hv.symm.trans hw
    omega
  simp only [exec, execRd, hshort, Bool.and_false, Bool.false_eq_true, if_false, readReg_ok hv]
  exact congrArg _ (runCommand_answer h rfl)

/-- The words of a canonical form: header and limbs, each limb by its weight (R55). -/
theorem payloadWords_canonicalPayload (v : Int) :
    payloadWords (canonicalPayload v) = headerWord (decide (v < 0)) (limbCount v.natAbs) ::
      (List.range (limbCount v.natAbs)).map (fun j => BitVec.ofNat 32 (v.natAbs / 2 ^ (32 * j))) := by
  rw [payloadWords, canonicalPayload_length, ← lowLimbs_eq_map]
  rfl

/-- Settles O37. -/
theorem rdAnswersTheCanonicalForm : Obligations.RdAnswersTheCanonicalForm := by
  intro s rs v h hv hlt
  rw [← payloadWords_canonicalPayload]
  exact exec_readout h hv hlt

/-- Settles O60: `LDI` leaves the latch clear and the payload's value in the register that `RD` then reads. -/
theorem loadThenReadRoundTrip : Obligations.LoadThenReadRoundTrip := by
  refine ⟨fun s k p h hp hlt => ⟨_, exec_ldi h hp, ?_⟩, fun v hv => ⟨?_, payloadValue_canonicalPayload v⟩⟩
  · refine (exec_readout ?_ ?_ hlt).trans ?_
    · exact h
    · exact set_same s.regs k _
    · simp only [List.append_assoc, List.singleton_append]
  · rwa [canonicalPayload_length, ← fits_eq_admitsLimbs]

/-! ### When a command has no next state (U22) -/

/-- With `MAXLIMBS` finite the invariant leaves no value too long to be read out. -/
theorem limbCount_lt_of_inv {s : State} {r : Reg} {v : Int} (hs : s.Inv) (hm : Config.maxLimbs ≠ .unbounded)
    (hv : s.regs[r] = some v) : limbCount v.natAbs < 2 ^ 24 := by
  obtain ⟨hregs, -⟩ := hs
  have hfit := (regsFit_iff s).mp hregs r v hv
  rw [fits_eq_admitsLimbs] at hfit
  exact lt_of_admitsLimbs hm hfit

/-- Settles O29: by the shape of every meaning only `RD` of a too long value has no next state. -/
theorem onlyUncountableReadStops : Obligations.OnlyUncountableReadStops := by
  intro i s
  obtain ⟨-, hx⟩ | ⟨_, -, hx⟩ | ⟨rs, hi, -, hlong, hx⟩ | ⟨-, -, _, -, hx⟩ := exec_shape i s <;> rw [hx]
  · simp
  · simp
  · refine ⟨by simp, fun r hr => ?_⟩
    obtain ⟨v, hv, hle⟩ := (readTooLong_iff rs s).mp hlong
    cases hr
    refine ⟨rfl, rs, v, hi, hv, hle, ?_⟩
    by_contra! ⟨hs, hm⟩
    have := limbCount_lt_of_inv hs hm hv
    omega
  · simp

end Sys2Proof.Machine
end

section
/-! PROOFS. The multiplier (41_multiply.md): the Karatsuba recursion is the exact product for every threshold of at least
3, with the signs it is the product of integers, and `MUL` writes that product or faults. -/

namespace Sys2Proof.Machine

/-! ### One level of the recursion (R121, R122) -/

/-- The middle term of R121 is the sum of the cross products, so three products recombine to the whole one. -/
theorem karatsuba_combine (a b c d n : Nat) :
    a * c + ((a + b) * (c + d) - a * c - b * d) * 2 ^ n + b * d * 2 ^ (2 * n) = (a + 2 ^ n * b) * (c + 2 ^ n * d) := by
  have hcross : (a + b) * (c + d) - a * c - b * d = a * d + b * c := by
    have hexpand : (a + b) * (c + d) = a * c + (b * d + (a * d + b * c)) := by ring
    rw [hexpand, Nat.add_sub_cancel_left, Nat.add_sub_cancel_left]
  rw [hcross]
  ring

/-- The halves of a number of at most `2 * n` bits have at most `n` bits, and their sum one more. -/
theorem bitLength_halves {x n : Nat} (h : bitLength x ≤ 2 * n) :
    bitLength (x % 2 ^ n) ≤ n ∧ bitLength (x / 2 ^ n) ≤ n ∧ bitLength (x % 2 ^ n + x / 2 ^ n) ≤ n + 1 := by
  have hlow : x % 2 ^ n < 2 ^ n := Nat.mod_lt _ (Nat.two_pow_pos n)
  have hhigh : x / 2 ^ n < 2 ^ n := by
    rw [bitLength_le_iff, two_mul, pow_add] at h
    exact Nat.div_lt_of_lt_mul h
  simp only [bitLength_le_iff]
  refine ⟨hlow, hhigh, ?_⟩
  rw [pow_succ]
  omega

/-! ### The recursion is the exact product (R122) -/

/-- The three sub-products of a level have operands of at most `n + 1` bits. That is below the larger bit length, which is
at least 4 when the threshold is at least 3 and does not apply, so a depth above both bit lengths suffices. -/
theorem kMulGo_eq_mul {kbase : Nat} (hk : 3 ≤ kbase) {fuel x y : Nat} (hx : bitLength x < fuel)
    (hy : bitLength y < fuel) : kMulGo kbase fuel x y = x * y := by
  induction fuel generalizing x y with
  | zero => omega
  | succ fuel ih =>
    rw [kMulGo]
    split
    · rfl
    · next hbig =>
      generalize hn : (max (bitLength x) (bitLength y) + 1) / 2 = n
      have hfuel : n + 1 < fuel := by omega
      obtain ⟨ha, hb, hab⟩ := bitLength_halves (x := x) (n := n) (by omega)
      obtain ⟨hc, hd, hcd⟩ := bitLength_halves (x := y) (n := n) (by omega)
      simp only
      rw [ih (by omega) (by omega), ih (by omega) (by omega), ih (by omega) (by omega), karatsuba_combine,
        Nat.mod_add_div, Nat.mod_add_div]

theorem kMul_eq_mul {kbase : Nat} (hk : 3 ≤ kbase) (x y : Nat) : kMul kbase x y = x * y :=
  kMulGo_eq_mul hk (Nat.lt_succ_of_le (le_max_left _ _)) (Nat.lt_succ_of_le (le_max_right _ _))

/-! ### Signed operands (R120, R123) -/

/-- The test for zero in R120 changes no number, as an integer has no negative zero. -/
theorem kProduct_eq_ite (kbase : Nat) (x y : Int) :
    kProduct kbase x y = if (decide (x < 0) ^^ decide (y < 0)) then -(kMul kbase x.natAbs y.natAbs : Int)
      else kMul kbase x.natAbs y.natAbs := by
  unfold kProduct
  by_cases hzero : kMul kbase x.natAbs y.natAbs = 0 <;> simp [hzero]

/-- Settles O49: by the signs of the operands, each magnitude being its operand or the negation of it. -/
theorem signedKaratsubaIsTheProduct : Obligations.SignedKaratsubaIsTheProduct := by
  intro kbase x y hk
  rw [kProduct_eq_ite, kMul_eq_mul hk, Nat.cast_mul, Int.natCast_natAbs, Int.natCast_natAbs]
  rcases lt_or_ge x 0 with hx | hx <;> rcases lt_or_ge y 0 with hy | hy
  · simp [hx, hy, abs_of_neg]
  · simp [hx, hy.not_gt, abs_of_neg, abs_of_nonneg hy]
  · simp [hx.not_gt, hy, abs_of_neg, abs_of_nonneg hx]
  · simp [hx.not_gt, hy.not_gt, abs_of_nonneg hx, abs_of_nonneg hy]

/-! ### `MUL` (R120, R24) -/

/-- A command whose one value does not fit raises `CapacityExceeded` and writes nothing. -/
theorem runCommand_write_too_large {i : Instr} {rd : Reg} {v : Int} {s : State} (h : s.err = false)
    (hd : distinctDests i = true) (hv : fits v = false) :
    runCommand i (.ok ⟨[(rd, v)], []⟩) s = faulted 7 i s := by
  have hfault : runCommand i (.ok ⟨[(rd, v)], []⟩) s = takeFault .capacityExceeded (encodeWord i) s := by
    simp [runCommand, finish, h, hd, hv]
  exact hfault

/-- With valid sources `MUL` hands their exact product to the frame. -/
theorem exec_mul {s : State} {rd rs1 rs2 : Reg} {x y : Int} (hx : s.regs[rs1] = some x) (hy : s.regs[rs2] = some y) :
    exec (.mul rd rs1 rs2) s = .next (runCommand (.mul rd rs1 rs2) (.ok ⟨[(rd, x * y)], []⟩) s) := by
  simp only [exec, execMul, readReg_ok hx, readReg_ok hy]
  rfl

/-- Settles O38: whether the product fits decides between the two outcomes. -/
theorem mulWritesTheProduct : Obligations.MulWritesTheProduct := by
  intro s rd rs1 rs2 x y h hx hy
  rw [exec_mul hx hy, ← fits_eq]
  refine ⟨fun hfit => congrArg _ (runCommand_write h rfl hfit), ?_⟩
  cases hfit : fits (x * y) with
  | true => exact .inl rfl
  | false => exact .inr (congrArg _ (runCommand_write_too_large h rfl hfit))

end Sys2Proof.Machine
end

section
/-! PROOFS. The divider (42_divide.md): the bit-serial algorithm and the contract give the same pair, the only one, and
`DIV` writes it. -/

namespace Sys2Proof.Machine

/-! ### The bit-serial division (R131) -/

/-- One step of the loop takes the quotient and remainder of `m` to those of `m` with the bit `b` appended. -/
theorem divStep_div_mod {d b : Nat} (m : Nat) (hd : 0 < d) (hb : b < 2) :
    divStep d b (m / d, m % d) = ((2 * m + b) / d, (2 * m + b) % d) := by
  have hsum : 2 * (m % d) + b + d * (2 * (m / d)) = 2 * m + b := by
    rw [mul_left_comm]
    have := Nat.mod_add_div m d
    omega
  have hlt : m % d < d := Nat.mod_lt m hd
  unfold divStep
  split
  next hge =>
    obtain ⟨hq, hr⟩ := (Nat.div_mod_unique (a := 2 * m + b) (d := 2 * (m / d) + 1) hd).mpr
      ⟨show 2 * (m % d) + b - d + d * (2 * (m / d) + 1) = 2 * m + b by rw [mul_add]; omega, by omega⟩
    rw [hq, hr]
  next hlow =>
    obtain ⟨hq, hr⟩ := (Nat.div_mod_unique hd).mpr ⟨hsum, by omega⟩
    rw [hq, hr]

/-- The invariant of the loop: with `i` bits left, the pair is the quotient and remainder of the bits already taken. -/
theorem divLoop_div_mod (n : Nat) {d : Nat} (hd : 0 < d) (i : Nat) :
    divLoop n d i (n / 2 ^ i / d, n / 2 ^ i % d) = (n / d, n % d) := by
  induction i with
  | zero => simp [divLoop]
  | succ i ih =>
    have hbits : 2 * (n / 2 ^ (i + 1)) + n / 2 ^ i % 2 = n / 2 ^ i := by
      rw [pow_succ, ← Nat.div_div_eq_div_mul]
      exact Nat.div_add_mod _ 2
    rw [divLoop, divStep_div_mod _ hd (Nat.mod_lt _ two_pos), hbits, ih]

/-- The loop begins before any bit of the dividend, with the quotient and remainder of 0. -/
theorem divRef_eq (n : Nat) {d : Nat} (hd : 0 < d) : divRef n d = (n / d, n % d) := by
  have hstart := divLoop_div_mod n hd (bitLength n)
  rwa [Nat.div_eq_of_lt (lt_two_pow_bitLength n), Nat.zero_div, Nat.zero_mod] at hstart

/-- Settles O50: the loop gives quotient and remainder, and those are the only pair that meets the contract. -/
theorem bitSerialDivisionIsExact : Obligations.BitSerialDivisionIsExact := by
  intro n d hd
  refine ⟨divRef_eq n hd, fun q r hn hr => ?_⟩
  obtain ⟨hq, hr⟩ := (Nat.div_mod_unique hd).mpr ⟨show r + d * q = n by rw [hn]; ring, hr⟩
  rw [divRef_eq n hd, hq, hr]

/-! ### `DIV` (R130, R132) -/

/-- A command that writes two values that fit. -/
theorem runCommand_write_two {i : Instr} {rd rd2 : Reg} {v v2 : Int} {s : State} (h : s.err = false)
    (hd : distinctDests i = true) (hv : fits v = true) (hv2 : fits v2 = true) :
    runCommand i (.ok ⟨[(rd, v), (rd2, v2)], []⟩) s =
      { s with regs := (s.regs.set rd (some v)).set rd2 (some v2), rsp := s.rsp ++ [0] } :=
  runCommand_ok h hd (by simp [hv, hv2])

/-- A step of a meaning that raises no fault hands its value on. -/
theorem except_ok_bind {α β : Type} (v : α) (k : α → Except CmdFault β) : (Except.ok v >>= k) = k v := rfl

/-- With valid sources that meet the condition on its arguments, `DIV` hands quotient and remainder to the frame. -/
theorem exec_div {s : State} {rd rd2 rs1 rs2 : Reg} {n d : Int} (hn : s.regs[rs1] = some n) (hd : s.regs[rs2] = some d)
    (hn0 : 0 ≤ n) (hd0 : 0 < d) :
    exec (.div rd rd2 rs1 rs2) s =
      .next (runCommand (.div rd rd2 rs1 rs2) (.ok ⟨[(rd, n / d), (rd2, n % d)], []⟩) s) := by
  simp only [exec, execDiv, readReg_ok hn, readReg_ok hd, except_ok_bind, hd0, hn0, decide_true, Bool.and_self,
    requireArg_true]

/-- Settles O39: the contract has one solution, and both its values are at most the dividend, which fits. -/
theorem divWritesQuotientAndRemainder : Obligations.DivWritesQuotientAndRemainder := by
  intro s rd rd2 rs1 rs2 n d q r h hfit hne hn hd hn0 hd0 hdecomp hr0 hrd
  obtain ⟨hq, hr⟩ := (Int.ediv_emod_unique hd0).mpr ⟨show r + d * q = n by rw [hdecomp]; ring, hr0, hrd⟩
  have hnfit : fits n = true := (regsFit_iff s).mp hfit rs1 n hn
  have hqfit : fits (n / d) = true := fits_mono (Int.natAbs_ediv_le_natAbs n d) hnfit
  have hrfit : fits (n % d) = true :=
    fits_mono (by rw [Int.natAbs_emod_of_nonneg hn0]; exact Nat.mod_le _ _) hnfit
  have hdests : distinctDests (.div rd rd2 rs1 rs2) = true := decide_eq_true hne
  rw [exec_div hn hd hn0 hd0, runCommand_write_two h hdests hqfit hrfit, hq, hr]

end Sys2Proof.Machine
end

section
/-! PROOFS. The GCD and Bézout solver (43_egcd_modinv.md): the equations of the reference recursion, its Bézout invariant
and the bound on its coefficients; `EGCD` writes its triple, and `MODINV` the inverse it gives. -/

namespace Sys2Proof.Machine

/-! ### The equations of the recursion (R142) -/

/-- Depths that the second argument does not exceed are all the same: it falls at every call. -/
theorem egcdGo_eq_of_le {n m a b : Nat} (hn : b ≤ n) (hm : b ≤ m) : egcdGo n a b = egcdGo m a b := by
  induction n generalizing m a b with
  | zero =>
    obtain rfl := Nat.le_zero.mp hn
    cases m <;> simp [egcdGo]
  | succ n ih =>
    cases m with
    | zero =>
      obtain rfl := Nat.le_zero.mp hm
      simp [egcdGo]
    | succ m =>
      rw [egcdGo, egcdGo]
      split
      · rfl
      · next hb =>
        have hlt := Nat.mod_lt a (Nat.pos_of_ne_zero hb)
        rw [ih (m := m) (by omega) (by omega)]

@[simp] theorem egcdRef_zero (a : Nat) : egcdRef a 0 = ⟨a, 1, 0⟩ := rfl

theorem egcdRef_of_pos (a : Nat) {b : Nat} (hb : 0 < b) :
    egcdRef a b = Bezout.unwind (a / b) (egcdRef b (a % b)) := by
  obtain ⟨n, rfl⟩ := Nat.exists_eq_succ_of_ne_zero hb.ne'
  have hle : a % (n + 1) ≤ n := Nat.le_of_lt_succ (Nat.mod_lt a hb)
  rw [egcdRef, egcdGo, if_neg hb.ne', egcdGo_eq_of_le hle le_rfl, egcdRef]

/-! ### The Bézout invariant (R143) -/

/-- The operands of the recursive call have the same gcd. -/
theorem gcd_of_recursive_call (a b : Nat) : Nat.gcd b (a % b) = Nat.gcd a b := by
  rw [Nat.gcd_comm b, ← Nat.gcd_rec, Nat.gcd_comm]

theorem egcdRef_g (a b : Nat) : (egcdRef a b).g = Nat.gcd a b := by
  induction b, a using Nat.gcd.induction with
  | H0 a => simp
  | H1 b a hb ih =>
    rw [egcdRef_of_pos a hb]
    exact ih.trans (gcd_of_recursive_call a b)

theorem egcdRef_bezout (a b : Nat) : a * (egcdRef a b).x + b * (egcdRef a b).y = (egcdRef a b).g := by
  induction b, a using Nat.gcd.induction with
  | H0 a => simp
  | H1 b a hb ih =>
    have hdiv : (b : Int) * (a / b : Nat) + (a % b : Nat) = a := mod_cast Nat.div_add_mod a b
    rw [egcdRef_of_pos a hb]
    simp only [Bezout.unwind]
    linear_combination ih - (egcdRef b (a % b)).y * hdiv

/-- With `a` below `b` the first division has quotient 0, so the first call only swaps the operands. -/
theorem egcdRef_of_lt {a b : Nat} (h : a < b) :
    egcdRef a b = ⟨(egcdRef b a).g, (egcdRef b a).y, (egcdRef b a).x⟩ := by
  rw [egcdRef_of_pos a (by omega), Nat.div_eq_of_lt h, Nat.mod_eq_of_lt h]
  simp [Bezout.unwind]

/-- Settles O52. -/
theorem egcdSatisfiesBezout : Obligations.EgcdSatisfiesBezout :=
  fun a b => ⟨egcdRef_bezout a b, egcdRef_g a b, egcdRef_of_lt⟩

/-! ### The bound on the coefficients (R143) -/

/-- One call of the recursion keeps the bound: in units of the gcd, the remainder and `q` times the divisor make up the
dividend. -/
theorem natAbs_sub_mul_le_div {a b g : Nat} {x y : Int} (hb : g ∣ b) (hr : g ∣ a % b) (hx : x.natAbs ≤ a % b / g)
    (hy : y.natAbs ≤ b / g) : (x - (a / b : Nat) * y).natAbs ≤ a / g := by
  calc (x - (a / b : Nat) * y).natAbs
      ≤ x.natAbs + ((a / b : Nat) * y).natAbs := Int.natAbs_sub_le _ _
    _ = x.natAbs + a / b * y.natAbs := by rw [Int.natAbs_mul, Int.natAbs_natCast]
    _ ≤ a % b / g + a / b * (b / g) := Nat.add_le_add hx (Nat.mul_le_mul_left _ hy)
    _ = (a % b + a / b * b) / g := by rw [← Nat.mul_div_assoc _ hb, Nat.add_div_of_dvd_right hr]
    _ = a / g := by rw [Nat.mod_add_div']

/-- The standard bound on Euclid's cofactors. The 1 is for a division without remainder, where the recursion ends with
the coefficients 0 and 1. -/
theorem egcdRef_natAbs_le (a b : Nat) :
    (egcdRef a b).x.natAbs ≤ max (b / Nat.gcd a b) 1 ∧ (egcdRef a b).y.natAbs ≤ max (a / Nat.gcd a b) 1 := by
  induction b, a using Nat.gcd.induction with
  | H0 a => simp
  | H1 b a hb ih =>
    rw [gcd_of_recursive_call] at ih
    obtain ⟨hx, hy⟩ := ih
    rw [egcdRef_of_pos a hb]
    refine ⟨hy, ?_⟩
    rcases Nat.eq_zero_or_pos (a % b) with hr | hr
    · simp [Bezout.unwind, hr]
    · have hdvdb : Nat.gcd a b ∣ b := Nat.gcd_dvd_right a b
      have hdvdr : Nat.gcd a b ∣ a % b := (Nat.dvd_mod_iff hdvdb).mpr (Nat.gcd_dvd_left a b)
      have hg : 0 < Nat.gcd a b := Nat.gcd_pos_of_pos_right a hb
      rw [max_eq_left (Nat.div_pos (Nat.le_of_dvd hr hdvdr) hg)] at hx
      rw [max_eq_left (Nat.div_pos (Nat.le_of_dvd hb hdvdb) hg)] at hy
      exact le_max_of_le_left (natAbs_sub_mul_le_div hdvdb hdvdr hx hy)

/-! ### The triple fits (R24) -/

/-- A magnitude that is at most 1 or at most a value that fits, fits. -/
theorem fits_of_natAbs_le_max {v : Int} {n : Nat} (hn : fits n = true) (h : v.natAbs ≤ max n 1) : fits v = true := by
  rcases le_max_iff.mp h with hle | hle
  · exact fits_mono (w := n) hle hn
  · exact fits_of_lt (by omega)

theorem fits_egcdRef_g {a b : Nat} (ha : fits a = true) (hb : fits b = true) : fits (egcdRef a b).g = true := by
  rw [egcdRef_g]
  rcases Nat.eq_zero_or_pos b with rfl | hpos
  · simpa using ha
  · exact fits_mono (w := b) (Nat.gcd_le_right a hpos) hb

theorem fits_egcdRef_x (a : Nat) {b : Nat} (hb : fits b = true) : fits (egcdRef a b).x = true :=
  fits_of_natAbs_le_max hb ((egcdRef_natAbs_le a b).1.trans (max_le_max (Nat.div_le_self _ _) le_rfl))

theorem fits_egcdRef_y {a : Nat} (b : Nat) (ha : fits a = true) : fits (egcdRef a b).y = true :=
  fits_of_natAbs_le_max ha ((egcdRef_natAbs_le a b).2.trans (max_le_max (Nat.div_le_self _ _) le_rfl))

/-! ### `EGCD` (R140) -/

/-- A command that writes three values that fit. -/
theorem runCommand_write_three {i : Instr} {rd rd2 rd3 : Reg} {v v2 v3 : Int} {s : State} (h : s.err = false)
    (hd : distinctDests i = true) (hv : fits v = true) (hv2 : fits v2 = true) (hv3 : fits v3 = true) :
    runCommand i (.ok ⟨[(rd, v), (rd2, v2), (rd3, v3)], []⟩) s =
      { s with regs := ((s.regs.set rd (some v)).set rd2 (some v2)).set rd3 (some v3), rsp := s.rsp ++ [0] } :=
  runCommand_ok h hd (by simp [hv, hv2, hv3])

/-- With valid sources that are not negative, `EGCD` hands the triple of the recursion to the frame. -/
theorem exec_egcd {s : State} {rd rd2 rd3 rs1 rs2 : Reg} {a b : Nat} (ha : s.regs[rs1] = some (a : Int))
    (hb : s.regs[rs2] = some (b : Int)) :
    exec (.egcd rd rd2 rd3 rs1 rs2) s = .next (runCommand (.egcd rd rd2 rd3 rs1 rs2)
      (.ok ⟨[(rd, ((egcdRef a b).g : Int)), (rd2, (egcdRef a b).x), (rd3, (egcdRef a b).y)], []⟩) s) := by
  simp only [exec, execEgcd, readReg_ok ha, readReg_ok hb, except_ok_bind, Int.natCast_nonneg, decide_true,
    Bool.and_self, requireArg_true, Int.toNat_natCast]

/-- Settles O40: by the bound on the coefficients the triple fits wherever the operands do. -/
theorem egcdWritesTheReferenceTriple : Obligations.EgcdWritesTheReferenceTriple := by
  intro s rd rd2 rd3 rs1 rs2 a b h hfit h12 h13 h23 ha hb
  have hafit : fits a = true := (regsFit_iff s).mp hfit rs1 a ha
  have hbfit : fits b = true := (regsFit_iff s).mp hfit rs2 b hb
  have hdests : distinctDests (.egcd rd rd2 rd3 rs1 rs2) = true := by simp [distinctDests, h12, h13, h23]
  rw [exec_egcd ha hb, runCommand_write_three h hdests (fits_egcdRef_g hafit hbfit) (fits_egcdRef_x a hbfit)
    (fits_egcdRef_y b hafit)]

/-! ### `MODINV` (R141) -/

theorem modInverse_of_coprime {a m : Nat} (h : Nat.gcd a m = 1) : modInverse a m = .ok ((egcdRef a m).x % (m : Int)) := by
  simp [modInverse, egcdRef_g, h]

/-- With valid sources in the range of R141, `MODINV` hands the inverse, if there is one, to the frame. -/
theorem exec_modinv {s : State} {rd rs1 rs2 : Reg} {a m : Nat} (ha : s.regs[rs1] = some (a : Int))
    (hm : s.regs[rs2] = some (m : Int)) (hpos : (1 : Int) ≤ m) :
    exec (.modinv rd rs1 rs2) s =
      .next (runCommand (.modinv rd rs1 rs2) (modInverse a m >>= fun v => .ok ⟨[(rd, v)], []⟩) s) := by
  simp only [exec, execModinv, readReg_ok ha, readReg_ok hm, except_ok_bind, Int.natCast_nonneg, hpos, decide_true,
    Bool.and_self, requireArg_true, Int.toNat_natCast]

/-- Modulo `m` the Bézout invariant of coprime operands says that the first coefficient is the inverse. -/
theorem mul_egcdRef_x_emod {a m : Nat} (h : Nat.gcd a m = 1) :
    (a : Int) * ((egcdRef a m).x % m) % m = 1 % m := by
  have hbezout := egcdRef_bezout a m
  rw [egcdRef_g, h, Nat.cast_one] at hbezout
  rw [Int.mul_emod, Int.emod_emod, ← Int.mul_emod, ← hbezout, Int.add_mul_emod_self_left]

/-- Settles O41: the first coefficient, reduced modulo `m`, is the inverse and is below `m`, which fits. -/
theorem modinvWritesTheInverse : Obligations.ModinvWritesTheInverse := by
  intro s rd rs1 rs2 a m h hfit ha hm ha0 hm1 hgcd
  have hm0 : 0 ≤ m := by omega
  lift a to Nat using ha0
  lift m to Nat using hm0
  rw [Int.gcd_natCast_natCast] at hgcd
  have hnonneg : 0 ≤ (egcdRef a m).x % (m : Int) := Int.emod_nonneg _ (by omega)
  have hlt : (egcdRef a m).x % (m : Int) < m := Int.emod_lt_of_pos _ hm1
  have hvfit : fits ((egcdRef a m).x % (m : Int)) = true :=
    fits_mono (by omega) ((regsFit_iff s).mp hfit rs2 m hm)
  refine ⟨_, hnonneg, hlt, mul_egcdRef_x_emod hgcd, ?_⟩
  rw [exec_modinv ha hm hm1, modInverse_of_coprime hgcd, except_ok_bind, runCommand_write h rfl hvfit]

end Sys2Proof.Machine
end

section
/-! PROOFS. The modular exponentiation engine (44_modexp.md): square and multiply computes the remainder of the exact
power, the laws of exponents, and what `MODEXP` writes. -/

namespace Sys2Proof.Machine

/-! ### The remainder of the exact power (R151) -/

theorem sq_pow_mod (b e n : Nat) : b ^ e % n * (b ^ e % n) % n = b ^ (2 * e) % n := by
  rw [← Nat.mul_mod, ← pow_add, two_mul]

/-- Square and multiply, with at least as many rounds as the exponent has bits: the recursive call has the power for all
bits but the last, and the last one is the parity of the exponent. -/
theorem modPowGo_eq_pow_mod (b n : Nat) {fuel e : Nat} (h : e < 2 ^ fuel) : modPowGo b n fuel e = b ^ e % n := by
  induction fuel generalizing e with
  | zero =>
    obtain rfl : e = 0 := by omega
    rfl
  | succ fuel ih =>
    rw [modPowGo]
    split
    · next hzero => rw [hzero, pow_zero]
    · have hhalf : modPowGo b n fuel (e / 2) = b ^ (e / 2) % n := ih (by omega)
      simp only [hhalf, sq_pow_mod]
      split
      · next hodd =>
        have he : e = 2 * (e / 2) + 1 := by omega
        rw [Nat.mod_mul_mod, ← pow_succ, ← he]
      · next heven =>
        have he : e = 2 * (e / 2) := by omega
        rw [← he]

theorem modPow_eq_pow_mod (b e n : Nat) : modPow b e n = b ^ e % n := by
  rw [modPow, modPowGo_eq_pow_mod _ _ (lt_two_pow_bitLength e), ← Nat.pow_mod]

/-- A power of a power: the exponents multiply, also when the inner power is reduced first. -/
theorem modPow_modPow (b e f n : Nat) : modPow (modPow b e n) f n = modPow b (e * f) n := by
  simp only [modPow_eq_pow_mod]
  rw [← Nat.pow_mod, ← pow_mul]

theorem modPow_succ (b e n : Nat) : modPow b (e + 1) n = modPow b e n * b % n := by
  rw [modPow_eq_pow_mod, modPow_eq_pow_mod, pow_succ, Nat.mod_mul_mod]

/-- Settles O54: `ModPow` is the remainder of the exact power, so the laws of powers are its own. -/
theorem modPowLaws : Obligations.ModPowLaws := by
  intro b e n _
  refine ⟨modPow_eq_pow_mod b 0 n, modPow_succ b e n, modPow_eq_pow_mod b e n, fun f => ⟨?_, modPow_modPow b e f n⟩⟩
  rw [modPow_modPow, modPow_modPow, mul_comm]

/-! ### `MODEXP` (R150) -/

/-- With valid sources that are not negative and an odd modulus, `MODEXP` hands the remainder of the power to the
frame. -/
theorem exec_modexp {s : State} {rd rs1 rs2 rs3 : Reg} {b e n : Nat} (hb : s.regs[rs1] = some (b : Int))
    (he : s.regs[rs2] = some (e : Int)) (hn : s.regs[rs3] = some (n : Int)) (hodd : n % 2 = 1) :
    exec (.modexp rd rs1 rs2 rs3) s =
      .next (runCommand (.modexp rd rs1 rs2 rs3) (.ok ⟨[(rd, ((b ^ e % n : Nat) : Int))], []⟩) s) := by
  have hpos : (1 : Int) ≤ n := by omega
  have hodd' : (n : Int) % 2 = 1 := by omega
  simp only [exec, execModexp, readReg_ok hb, readReg_ok he, readReg_ok hn, except_ok_bind, hpos, hodd',
    Int.natCast_nonneg, decide_true, Bool.and_self, requireArg_true, Int.toNat_natCast, modPow_eq_pow_mod]

/-- Settles O42: the remainder is below the modulus, which fits. -/
theorem modexpWritesThePower : Obligations.ModexpWritesThePower := by
  intro s rd rs1 rs2 rs3 b e n h hfit hb he hn hodd
  have hlt : b ^ e % n < n := Nat.mod_lt _ (by omega)
  have hvfit : fits ((b ^ e % n : Nat) : Int) = true :=
    fits_mono (w := n) hlt.le ((regsFit_iff s).mp hfit rs3 n hn)
  rw [exec_modexp hb he hn hodd, runCommand_write h rfl hvfit]

end Sys2Proof.Machine
end

section
/-! PROOFS. The Miller-Rabin kernel (45_miller_rabin.md): the decomposition that `MRDEC` writes, and the closed form of the
round that `MRW` evaluates. -/

namespace Sys2Proof.Machine

/-! ### The decomposition (R160) -/

/-- The loop halves `r` times and stops at the odd part, given at least `r` rounds. -/
theorem oddPartGo_mul_two_pow {u : Nat} (hu : u % 2 = 1) {fuel r : Nat} (h : r ≤ fuel) (k : Nat) :
    oddPartGo fuel (u * 2 ^ r) k = (u, k + r) := by
  induction fuel generalizing r k with
  | zero =>
    obtain rfl : r = 0 := by omega
    rw [oddPartGo, pow_zero, mul_one, add_zero]
  | succ fuel ih =>
    rw [oddPartGo]
    cases r with
    | zero => rw [pow_zero, mul_one, add_zero, if_neg (by omega)]
    | succ r =>
      have hdouble : u * 2 ^ (r + 1) = 2 * (u * 2 ^ r) := by ring
      rw [hdouble, if_pos (Nat.mul_mod_right 2 _), Nat.mul_div_cancel_left _ two_pos, ih (by omega), Nat.add_right_comm,
        Nat.add_assoc]

theorem oddPart_mul_two_pow {u : Nat} (hu : u % 2 = 1) (r : Nat) : oddPart (u * 2 ^ r) = (u, r) := by
  have hle : 2 ^ r ≤ u * 2 ^ r := Nat.le_mul_of_pos_left _ (by omega)
  have hfuel : r < bitLength (u * 2 ^ r) := by
    rw [← not_le, bitLength_le_iff]
    exact hle.not_gt
  rw [oddPart, oddPartGo_mul_two_pow hu hfuel.le, zero_add]

/-! ### `MRDEC` (R160) -/

/-- With a valid source of at least 2, `MRDEC` hands odd part and exponent of its predecessor to the frame. -/
theorem exec_mrdec {s : State} {rd rd2 rs1 : Reg} {n : Nat} (hn : s.regs[rs1] = some (n : Int)) (hpos : 2 ≤ n) :
    exec (.mrdec rd rd2 rs1) s = .next (runCommand (.mrdec rd rd2 rs1)
      (.ok ⟨[(rd, ((oddPart (n - 1)).1 : Int)), (rd2, ((oddPart (n - 1)).2 : Int))], []⟩) s) := by
  have hpos' : (2 : Int) ≤ n := by omega
  have hpred : ((n : Int) - 1).toNat = n - 1 := by omega
  simp only [exec, execMrdec, readReg_ok hn, except_ok_bind, hpos', decide_true, requireArg_true, hpred]

/-- Settles O43: the loop finds the given decomposition, and both its numbers are below `n`, which fits. -/
theorem mrdecWritesTheDecomposition : Obligations.MrdecWritesTheDecomposition := by
  intro s rd rd2 rs1 n u r h hfit hne hn hpos hdecomp hodd
  have hnfit : fits n = true := (regsFit_iff s).mp hfit rs1 n hn
  have hu : u ≤ n := by
    have hle : u ≤ u * 2 ^ r := Nat.le_mul_of_pos_right _ (Nat.two_pow_pos r)
    omega
  have hr : r ≤ n := by
    have hlt : r < 2 ^ r := Nat.lt_two_pow_self
    have hle : 2 ^ r ≤ u * 2 ^ r := Nat.le_mul_of_pos_left _ (by omega)
    omega
  have hdests : distinctDests (.mrdec rd rd2 rs1) = true := decide_eq_true hne
  rw [exec_mrdec hn hpos, hdecomp, oddPart_mul_two_pow hodd,
    runCommand_write_two h hdests (fits_mono (v := u) (w := n) hu hnfit) (fits_mono (v := r) (w := n) hr hnfit)]

/-! ### The witness round (R162) -/

theorem witnessSquares_eq_zero_or_one (n k x : Nat) : witnessSquares n k x = 0 ∨ witnessSquares n k x = 1 := by
  induction k generalizing x with
  | zero => exact .inl rfl
  | succ k ih =>
    rw [witnessSquares]
    split
    · exact .inr rfl
    · exact ih _

/-- Squaring a number after it has been squared and reduced is one squaring more. -/
theorem sq_mod_pow_two_pow_mod (x j n : Nat) : (x ^ 2 % n) ^ 2 ^ j % n = x ^ 2 ^ (j + 1) % n := by
  rw [← Nat.pow_mod, ← pow_mul, ← pow_succ']

/-- The loop answers 1 exactly when one of its squarings gives `n - 1`: the first one, or one of those the recursive
call makes. -/
theorem witnessSquares_eq_one_iff (n k x : Nat) :
    witnessSquares n k x = 1 ↔ ∃ j, 1 ≤ j ∧ j ≤ k ∧ x ^ 2 ^ j % n = n - 1 := by
  induction k generalizing x with
  | zero =>
    constructor
    · intro h
      exact absurd h zero_ne_one
    · rintro ⟨j, hj1, hj0, -⟩
      omega
  | succ k ih =>
    rw [witnessSquares, modPow_eq_pow_mod]
    split
    · next hhit => exact iff_of_true rfl ⟨1, le_rfl, by omega, by rwa [pow_one]⟩
    · next hmiss =>
      rw [ih]
      constructor
      · rintro ⟨j, hj1, hjk, hj⟩
        exact ⟨j + 1, by omega, by omega, by rwa [← sq_mod_pow_two_pow_mod]⟩
      · rintro ⟨j, hj1, hjk, hj⟩
        obtain ⟨i, rfl⟩ : ∃ i, j = i + 1 := ⟨j - 1, by omega⟩
        have hi : i ≠ 0 := by
          rintro rfl
          rw [zero_add, pow_one] at hj
          exact hmiss hj
        exact ⟨i, by omega, by omega, by rwa [sq_mod_pow_two_pow_mod]⟩

theorem witnessRef_eq_zero_or_one (base r u n : Nat) : witnessRef base r u n = 0 ∨ witnessRef base r u n = 1 := by
  rw [witnessRef]
  split
  · exact .inr rfl
  · exact witnessSquares_eq_zero_or_one _ _ _

/-- The closed form of the round (R162), in exact powers. -/
theorem witnessRef_eq_one_iff (base r u n : Nat) :
    witnessRef base r u n = 1 ↔ base ^ u % n = 1 ∨ base ^ u % n = n - 1 ∨
      ∃ j, 1 ≤ j ∧ j ≤ r - 1 ∧ (base ^ u % n) ^ 2 ^ j % n = n - 1 := by
  rw [witnessRef, modPow_eq_pow_mod, ← or_assoc]
  split
  · next hfirst => exact iff_of_true rfl (.inl hfirst)
  · next hfirst => rw [witnessSquares_eq_one_iff, or_iff_right hfirst]

/-! ### `MRW` (R161) -/

/-- With valid sources that are not negative and an odd `n` of at least 3, `MRW` hands the verdict to the frame. -/
theorem exec_mrw {s : State} {rd rs1 rs2 rs3 rs4 : Reg} {base r u n : Nat} (hb : s.regs[rs1] = some (base : Int))
    (hr : s.regs[rs2] = some (r : Int)) (hu : s.regs[rs3] = some (u : Int)) (hn : s.regs[rs4] = some (n : Int))
    (hpos : 3 ≤ n) (hodd : n % 2 = 1) :
    exec (.mrw rd rs1 rs2 rs3 rs4) s =
      .next (runCommand (.mrw rd rs1 rs2 rs3 rs4) (.ok ⟨[(rd, (witnessRef base r u n : Int))], []⟩) s) := by
  have hpos' : (3 : Int) ≤ n := by omega
  have hodd' : (n : Int) % 2 = 1 := by omega
  simp only [exec, execMrw, readReg_ok hb, readReg_ok hr, readReg_ok hu, readReg_ok hn, except_ok_bind, hpos', hodd',
    Int.natCast_nonneg, decide_true, Bool.and_self, requireArg_true, Int.toNat_natCast]

/-- Settles O44: the verdict is the round's closed form, and 0 and 1 fit one limb. -/
theorem mrwWritesTheWitnessVerdict : Obligations.MrwWritesTheWitnessVerdict := by
  intro s rd rs1 rs2 rs3 rs4 base r u n h hb hr hu hn hpos hodd
  have hverdict := witnessRef_eq_zero_or_one base r u n
  have hfit : fits (witnessRef base r u n : Int) = true := fits_of_lt (by omega)
  refine ⟨witnessRef base r u n, by exact_mod_cast hverdict, ?_, ?_⟩
  · rw [Nat.cast_eq_one, witnessRef_eq_one_iff]
  · rw [exec_mrw hb hr hu hn hpos hodd, runCommand_write h rfl hfit]

end Sys2Proof.Machine
end

section
/-! PROOFS. `NOP`, `ACK` and `RDSR` (46_system.md): what each answers, and that `RDSR` answers whatever the latch is. -/

namespace Sys2Proof.Machine

/-- Settles O30: `NOP` hands the frame an empty answer. -/
theorem nopOnlyResponds : Obligations.NopOnlyResponds := by
  intro s h
  exact congrArg _ (runCommand_answer h rfl)

/-- `ACK` does not go through the frame of R229, so the latch does not block it (R171, R228). -/
theorem exec_ack (s : State) : exec .ack s = .next (acknowledge s) := rfl

/-- Settles O31. -/
theorem ackClearsTheLatch : Obligations.AckClearsTheLatch :=
  exec_ack

/-- `RDSR` does not go through the frame of R229, so the latch does not block it (R172, R228): it answers the register's
value. -/
theorem exec_rdsr (sr : SysReg) (s : State) :
    exec (.rdsr sr) s = .next { s with rsp := s.rsp ++ [0, readSysReg sr s] } := rfl

/-- Settles O32: the four values of R28. -/
theorem rdsrReadsTheSystemRegisters : Obligations.RdsrReadsTheSystemRegisters :=
  fun s => ⟨exec_rdsr .id s, exec_rdsr .status s, exec_rdsr .errcmd s, exec_rdsr .cap s⟩

end Sys2Proof.Machine
end

section
/-! PROOFS. Exceptions (60_exceptions.md): what an illegal word does, what the latch lets through, which command raises
which fault, and that a command writes its destinations alone. -/

namespace Sys2Proof.Machine

/-! ### Illegal words (R222) -/

theorem execIllegal_of_clear {w : Word} {s : State} (h : s.err = false) :
    execIllegal w s = takeFault .illegalCommand w s := by simp [execIllegal, h]

theorem execIllegal_of_latched {w : Word} {s : State} (h : s.err = true) : execIllegal w s = dropBlocked s := by
  simp [execIllegal, h]

/-- Settles O10: with room in the response queue the step executes the illegal word, whatever the payload it took. -/
theorem illegalWordFaultsOrIsBlocked : Obligations.IllegalWordFaultsOrIsBlocked := by
  intro s w p rest e hc hf hd
  have hstep : step s = .next (execIllegal w (consume rest s)) := by
    rw [step_of_cut hc hf]
    simp [execCommand, hd]
  rw [hstep]
  exact ⟨fun h => congrArg _ (execIllegal_of_clear h), fun h => congrArg _ (execIllegal_of_latched h)⟩

/-! ### Fault entry (R226) -/

/-- A command of the channel, legal or illegal, that sets the latch has taken a fault and recorded its own word. -/
theorem execCommand_sets_latch {c : Command} {s t : State} (hs : s.err = false) (h : execCommand c s = .next t)
    (ht : t.err = true) : ∃ e, t = takeFault e c.word s := by
  obtain ⟨i, hd, hx⟩ | ⟨_, -, hx⟩ := execCommand_cases c s <;> rw [hx] at h
  · obtain ⟨hword, -, -⟩ := decode_eq_ok hd
    obtain ⟨-, rfl⟩ | ⟨he, -⟩ | ⟨-, e, rfl⟩ | ⟨ws, pl, -, rfl⟩ := exec_next_cases h
    · simp at ht
    · simp [hs] at he
    · exact ⟨e, by rw [hword]⟩
    · simp [hs] at ht
  · cases h
    exact ⟨.illegalCommand, execIllegal_of_clear hs⟩

/-- Settles O20: the step has executed a command of the channel, whose fault entry is the whole change. -/
theorem faultEntryChangesTheLatchOnly : Obligations.FaultEntryChangesTheLatchOnly := by
  intro s t hs h ht
  obtain ⟨w, p, rest, hc, -, hx⟩ := step_next h
  obtain ⟨e, rfl⟩ := execCommand_sets_latch (s := consume rest s) hs hx ht
  exact ⟨w, p, rest, hc, faultCode e, faultCode_mem_faultCodes e, rfl⟩

/-! ### With the latch set (R228) -/

/-- The decoder looks at the payload for `LDI` alone (R52, R86). -/
theorem decode_encodeWord_of_not_ldi {i : Instr} (h : distinctDests i = true) (ho : opcodeByte (encodeWord i) ≠ 0x10)
    (p : Payload) : decode (encodeWord i) p = .ok i := by
  rw [← decode_encodeWord h]
  simp only [decode, ho, if_false]

/-- The word of `ACK` is executed whatever the latch is. -/
theorem execCommand_ack (p : Payload) (s : State) : execCommand ⟨encodeWord .ack, p⟩ s = .next (acknowledge s) := by
  simp only [execCommand, decode_encodeWord_of_not_ldi (i := .ack) rfl (by decide), exec_ack]

/-- The words of `RDSR` are executed whatever the latch is. -/
theorem execCommand_rdsr (sr : SysReg) (p : Payload) (s : State) :
    execCommand ⟨encodeWord (.rdsr sr), p⟩ s = .next { s with rsp := s.rsp ++ [0, readSysReg sr s] } := by
  have ho : opcodeByte (encodeWord (.rdsr sr)) ≠ 0x10 := by cases sr <;> decide
  simp only [execCommand, decode_encodeWord_of_not_ldi (i := .rdsr sr) rfl ho, exec_rdsr]

theorem exec_blocked {i : Instr} {s : State} (hs : s.err = true) (hack : i ≠ .ack) (hrdsr : ∀ sr, i ≠ .rdsr sr) :
    exec i s = .next (dropBlocked s) := by
  obtain ⟨hi, -⟩ | ⟨sr, hi, -⟩ | ⟨_, -, he, -⟩ | ⟨-, -, r, -, hx⟩ := exec_shape i s
  · exact absurd hi hack
  · exact absurd hi (hrdsr sr)
  · simp [hs] at he
  · rw [hx, runCommand_blocked hs]

/-- With the latch set every other word, legal or illegal, is dropped. -/
theorem execCommand_blocked {c : Command} {s : State} (hs : s.err = true) (hack : c.word ≠ encodeWord .ack)
    (hrdsr : ∀ sr, c.word ≠ encodeWord (.rdsr sr)) : execCommand c s = .next (dropBlocked s) := by
  obtain ⟨i, hd, hx⟩ | ⟨_, -, hx⟩ := execCommand_cases c s <;> rw [hx]
  · obtain ⟨hword, -, -⟩ := decode_eq_ok hd
    refine exec_blocked hs ?_ fun sr => ?_
    · rintro rfl
      exact hack hword.symm
    · rintro rfl
      exact hrdsr sr hword.symm
  · rw [execIllegal_of_latched hs]

/-- Everything a command of the channel can do with the latch set. -/
theorem execCommand_latched_cases (c : Command) {s : State} (hs : s.err = true) :
    (c.word = encodeWord .ack ∧ execCommand c s = .next (acknowledge s)) ∨
    (∃ rsp, execCommand c s = .next { s with rsp := rsp }) ∨ execCommand c s = .next (dropBlocked s) := by
  obtain ⟨w, p⟩ := c
  by_cases hack : w = encodeWord .ack
  · subst hack
    exact .inl ⟨rfl, execCommand_ack p s⟩
  · by_cases hrdsr : ∃ sr, w = encodeWord (.rdsr sr)
    · obtain ⟨sr, rfl⟩ := hrdsr
      exact .inr (.inl ⟨_, execCommand_rdsr sr p s⟩)
    · exact .inr (.inr (execCommand_blocked hs hack fun sr h => hrdsr ⟨sr, h⟩))

/-- Settles O21: the words of `ACK` and `RDSR` are the five that are executed. -/
theorem latchedCommandsAreBlocked : Obligations.LatchedCommandsAreBlocked := by
  intro s w p rest hs hc hf
  rw [step_of_cut hc hf]
  refine ⟨fun hack hrdsr => ?_, fun hack => ?_, fun sr hw => ?_⟩
  · refine execCommand_blocked (s := consume rest s) hs hack fun sr hw => hrdsr ?_
    obtain rfl : w = encodeWord (.rdsr sr) := hw
    cases sr <;> decide
  · subst hack
    exact execCommand_ack p _
  · subst hw
    have hread : readSysReg sr (consume rest s) = readSysReg sr s := by cases sr <;> rfl
    rw [← hread]
    exact execCommand_rdsr sr p _

/-- Settles O22: of the three things a command can do with the latch set, `ACK` alone clears it, and its word is the only
one it takes. -/
theorem onlyAckLeavesTheLatch : Obligations.OnlyAckLeavesTheLatch := by
  intro s t hs h
  obtain ⟨w, p, rest, hc, -, hx⟩ := step_next h
  obtain ⟨hw, hx'⟩ | ⟨rsp, hx'⟩ | hx' := execCommand_latched_cases ⟨w, p⟩ (s := consume rest s) hs <;>
    cases hx'.symm.trans hx
  · obtain ⟨-, hcmd⟩ := words_of_cut hc
    obtain rfl : w = 0x01000000 := hw
    have ho : opcodeByte 0x01000000 ≠ 0x10 := by decide
    exact ⟨rfl, .inr ⟨rfl, rfl, rfl, rfl, by rw [hcmd, Command.words, if_neg ho]; rfl⟩⟩
  · exact ⟨rfl, .inl ⟨hs, rfl, rfl⟩⟩
  · exact ⟨rfl, .inl ⟨hs, rfl, rfl⟩⟩

/-! ### The faults of a command, in the order of R229 -/

/-- A command whose steps 3 to 6 raise a fault leaves what R226 says. -/
theorem next_runCommand_faulted {i : Instr} {e : CmdFault} {r : Except CmdFault Result} {s : State} (h : s.err = false)
    (hd : distinctDests i = true) (hr : r = .error e) :
    (.next (runCommand i r s) : Host.Outcome State Fault Refusal) = .next (faulted (faultCode e) i s) := by
  rw [hr, runCommand_faulted h hd]

theorem read_bind_of_some {r : Reg} {s : State} {v : Int} (h : s.regs[r] = some v) (k : Int → Except CmdFault Result) :
    (readReg r s >>= k) = k v := by rw [readReg_ok h, except_ok_bind]

/-- A read raises `UninitRead` if its register is not valid, or if whatever comes after it raises `UninitRead`. -/
theorem read_bind_uninit {r : Reg} {s : State} {k : Int → Except CmdFault Result}
    (h : s.regs[r] = none ∨ ∀ v, k v = .error .uninitRead) : (readReg r s >>= k) = .error .uninitRead := by
  obtain ⟨v, hv, hr⟩ | ⟨-, hr⟩ := readReg_cases r s <;> rw [hr]
  · exact h.resolve_left (by simp [hv]) v
  · rfl

/-- A command whose reads have succeeded faults `InvalidArgument` if its arguments do not meet its condition (R224). -/
theorem next_runCommand_invalid {i : Instr} {c : Bool} {k : Unit → Except CmdFault Result} {s : State}
    (h : s.err = false) (hd : distinctDests i = true) (hc : ¬ c = true) :
    (.next (runCommand i (requireArg c >>= k) s) : Host.Outcome State Fault Refusal) = .next (faulted 1 i s) :=
  next_runCommand_faulted (e := .invalidArgument) h hd (by rw [Bool.eq_false_iff.mpr hc]; rfl)

/-- A term whose destinations are not pairwise different is the illegal word it encodes to (R88). -/
theorem exec_equalDests {i : Instr} {s : State} (h : s.err = false) (hd : distinctDests i = false) :
    exec i s = .next (faulted 5 i s) := by
  have key (r : Except CmdFault Result) : runCommand i r s = faulted 5 i s := by
    simp only [runCommand, h, hd, Bool.false_eq_true, if_false]
    rfl
  cases i with
  | div | egcd | mrdec => exact congrArg _ (key _)
  | _ => cases hd

/-- `UninitRead` comes from the first invalid source in the order of the reads, and nothing precedes the reads (R223). -/
theorem exec_uninit {i : Instr} {s : State} (hd : distinctDests i = true) (hs : s.err = false)
    (h : ∃ r ∈ i.sources, s.regs[r] = none) : exec i s = .next (faulted 6 i s) := by
  cases i with
  | nop | ack | rdsr | ldi | li => simp [Instr.sources] at h
  | readout rs1 =>
    have hnone : s.regs[rs1] = none := by simpa [Instr.sources] using h
    have hshort : readTooLong rs1 s = false := by simp only [readTooLong, hnone]
    simp only [exec, execRd, hshort, Bool.and_false, Bool.false_eq_true, if_false]
    exact next_runCommand_faulted hs hd (read_bind_uninit (.inl hnone))
  | mrdec rd rd2 rs1 =>
    have hnone : s.regs[rs1] = none := by simpa [Instr.sources] using h
    exact next_runCommand_faulted hs hd (read_bind_uninit (.inl hnone))
  | mul _ rs1 rs2 | div _ _ rs1 rs2 | egcd _ _ _ rs1 rs2 | modinv _ rs1 rs2 =>
    have hnone : s.regs[rs1] = none ∨ s.regs[rs2] = none := by simpa [Instr.sources] using h
    exact next_runCommand_faulted hs hd (read_bind_uninit (hnone.imp_right fun h _ => read_bind_uninit (.inl h)))
  | modexp _ rs1 rs2 rs3 =>
    have hnone : s.regs[rs1] = none ∨ s.regs[rs2] = none ∨ s.regs[rs3] = none := by simpa [Instr.sources] using h
    exact next_runCommand_faulted hs hd (read_bind_uninit (hnone.imp_right fun h _ =>
      read_bind_uninit (h.imp_right fun h _ => read_bind_uninit (.inl h))))
  | mrw _ rs1 rs2 rs3 rs4 =>
    have hnone : s.regs[rs1] = none ∨ s.regs[rs2] = none ∨ s.regs[rs3] = none ∨ s.regs[rs4] = none := by
      simpa [Instr.sources] using h
    exact next_runCommand_faulted hs hd (read_bind_uninit (hnone.imp_right fun h _ =>
      read_bind_uninit (h.imp_right fun h _ => read_bind_uninit (h.imp_right fun h _ => read_bind_uninit (.inl h)))))

/-- Settles O24. -/
theorem uninitialisedSourceFaults : Obligations.UninitialisedSourceFaults :=
  fun _ _ hi hs h => exec_uninit (wellFormed_distinct hi) hs h

/-! The rows of the table of causes (R224): the reads succeed, and the cause falsifies the condition on the arguments. -/

section
variable {s : State} {rd rd2 rd3 r₁ r₂ r₃ r₄ : Reg} {v₁ v₂ v₃ v₄ : Int} (hs : s.err = false)
include hs

theorem exec_div_invalid (hd : rd ≠ rd2) (h₁ : s.regs[r₁] = some v₁) (h₂ : s.regs[r₂] = some v₂)
    (hbad : v₂ ≤ 0 ∨ v₁ < 0) : exec (.div rd rd2 r₁ r₂) s = .next (faulted 1 (.div rd rd2 r₁ r₂) s) := by
  simp only [exec, execDiv, read_bind_of_some h₁, read_bind_of_some h₂]
  refine next_runCommand_invalid hs (decide_eq_true hd) ?_
  simp only [Bool.and_eq_true, decide_eq_true_eq]
  omega

theorem exec_egcd_invalid (hd : distinctDests (.egcd rd rd2 rd3 r₁ r₂) = true) (h₁ : s.regs[r₁] = some v₁)
    (h₂ : s.regs[r₂] = some v₂) (hbad : v₁ < 0 ∨ v₂ < 0) :
    exec (.egcd rd rd2 rd3 r₁ r₂) s = .next (faulted 1 (.egcd rd rd2 rd3 r₁ r₂) s) := by
  simp only [exec, execEgcd, read_bind_of_some h₁, read_bind_of_some h₂]
  refine next_runCommand_invalid hs hd ?_
  simp only [Bool.and_eq_true, decide_eq_true_eq]
  omega

theorem exec_modinv_invalid (h₁ : s.regs[r₁] = some v₁) (h₂ : s.regs[r₂] = some v₂) (hbad : v₁ < 0 ∨ v₂ < 1) :
    exec (.modinv rd r₁ r₂) s = .next (faulted 1 (.modinv rd r₁ r₂) s) := by
  simp only [exec, execModinv, read_bind_of_some h₁, read_bind_of_some h₂]
  refine next_runCommand_invalid hs rfl ?_
  simp only [Bool.and_eq_true, decide_eq_true_eq]
  omega

theorem exec_modexp_invalid (h₁ : s.regs[r₁] = some v₁) (h₂ : s.regs[r₂] = some v₂) (h₃ : s.regs[r₃] = some v₃)
    (hbad : v₃ < 1 ∨ v₃ % 2 = 0 ∨ v₂ < 0 ∨ v₁ < 0) :
    exec (.modexp rd r₁ r₂ r₃) s = .next (faulted 1 (.modexp rd r₁ r₂ r₃) s) := by
  simp only [exec, execModexp, read_bind_of_some h₁, read_bind_of_some h₂, read_bind_of_some h₃]
  refine next_runCommand_invalid hs rfl ?_
  simp only [Bool.and_eq_true, decide_eq_true_eq]
  omega

theorem exec_mrdec_invalid (hd : rd ≠ rd2) (h₁ : s.regs[r₁] = some v₁) (hbad : v₁ < 2) :
    exec (.mrdec rd rd2 r₁) s = .next (faulted 1 (.mrdec rd rd2 r₁) s) := by
  simp only [exec, execMrdec, read_bind_of_some h₁]
  refine next_runCommand_invalid hs (decide_eq_true hd) ?_
  simpa using hbad

theorem exec_mrw_invalid (h₁ : s.regs[r₁] = some v₁) (h₂ : s.regs[r₂] = some v₂) (h₃ : s.regs[r₃] = some v₃)
    (h₄ : s.regs[r₄] = some v₄) (hbad : v₄ < 3 ∨ v₄ % 2 = 0 ∨ v₁ < 0 ∨ v₂ < 0 ∨ v₃ < 0) :
    exec (.mrw rd r₁ r₂ r₃ r₄) s = .next (faulted 1 (.mrw rd r₁ r₂ r₃ r₄) s) := by
  simp only [exec, execMrw, read_bind_of_some h₁, read_bind_of_some h₂, read_bind_of_some h₃, read_bind_of_some h₄]
  refine next_runCommand_invalid hs rfl ?_
  simp only [Bool.and_eq_true, decide_eq_true_eq]
  omega

end

/-- Settles O25, row by row of the table of causes. -/
theorem invalidArgumentCauses : Obligations.InvalidArgumentCauses := by
  intro s rd rd2 rd3 r₁ r₂ r₃ r₄ v₁ v₂ v₃ v₄ hs h₁ h₂ h₃ h₄ h12 h13 h23
  exact ⟨exec_div_invalid hs h12 h₁ h₂, exec_egcd_invalid hs (by simp [distinctDests, h12, h13, h23]) h₁ h₂,
    exec_modinv_invalid hs h₁ h₂, exec_modexp_invalid hs h₁ h₂ h₃, exec_mrdec_invalid hs h12 h₁,
    exec_mrw_invalid hs h₁ h₂ h₃ h₄⟩

/-- The first component of the recursion is the gcd, and if it is not 1 there is no inverse (R225). -/
theorem exec_modinv_no_inverse {s : State} {rd rs1 rs2 : Reg} {a m : Nat} (hs : s.err = false)
    (ha : s.regs[rs1] = some (a : Int)) (hm : s.regs[rs2] = some (m : Int)) (hpos : (1 : Int) ≤ m)
    (hgcd : Nat.gcd a m ≠ 1) : exec (.modinv rd rs1 rs2) s = .next (faulted 2 (.modinv rd rs1 rs2) s) := by
  have hnone : modInverse a m = .error .noInverseExists := by simp [modInverse, egcdRef_g, hgcd]
  rw [exec_modinv ha hm hpos, hnone]
  exact next_runCommand_faulted hs rfl rfl

/-- Settles O26. -/
theorem noInverseFaults : Obligations.NoInverseFaults := by
  intro s rd rs1 rs2 a m hs ha hm ha0 hm1 hgcd
  have hm0 : 0 ≤ m := by omega
  lift a to Nat using ha0
  lift m to Nat using hm0
  exact exec_modinv_no_inverse hs ha hm hm1 hgcd

/-! ### What a command writes (R231) -/

theorem exec_regs_other {i : Instr} {s t : State} {q : Reg} (h : exec i s = .next t) (hq : q ∉ i.dests) :
    t.regs[q] = s.regs[q] := by
  obtain ⟨-, hx⟩ | ⟨_, -, hx⟩ | ⟨_, -, -, -, hx⟩ | ⟨-, -, r, ⟨hok, -⟩, hx⟩ := exec_shape i s <;> cases hx.symm.trans h
  · rfl
  · rfl
  · obtain ⟨-, hr⟩ | ⟨-, e, hr, -⟩ | ⟨-, -, res, hres, -, hr⟩ := runCommand_cases i r s <;> rw [hr]
    · rfl
    · rfl
    · obtain ⟨hwrites, -⟩ := hok res hres
      exact writeAll_regs_other (hwrites ▸ hq)

/-- Settles O45. -/
theorem onlyDestinationsAreWritten : Obligations.OnlyDestinationsAreWritten := by
  intro i s t h
  obtain ⟨c, pl, hrsp, -, -⟩ := exec_rsp h
  exact ⟨fun q hq => exec_regs_other h hq, exec_cmd_eq h, ⟨_, hrsp.symm⟩⟩

/-! ### Which commands can exceed the capacity (R227) -/

/-- No next state of the command records `CapacityExceeded`. -/
def NeverExceeds (i : Instr) (s : State) : Prop := ∀ t, exec i s = .next t → t.errCode ≠ 7

theorem neverExceeds_of_next {i : Instr} {s u : State} (h : exec i s = .next u) (hu : u.errCode ≠ 7) :
    NeverExceeds i s := by
  intro t ht
  cases h.symm.trans ht
  exact hu

theorem neverExceeds_of_faulted {i : Instr} {s : State} {c : BitVec 4} (h : exec i s = .next (faulted c i s))
    (hc : c ≠ 7) : NeverExceeds i s :=
  neverExceeds_of_next h hc

/-- With the latch clear the invariant leaves no code recorded (R32). -/
theorem errCode_ne_seven {s : State} (hinv : s.Inv) (hs : s.err = false) : s.errCode ≠ 7 := by
  obtain ⟨-, hlatch⟩ := hinv
  obtain ⟨-, hcode, -⟩ : s.lost = false ∧ s.errCode = 0 ∧ s.errCmd = 0 := by simpa [latchOk, hs] using hlatch
  rw [hcode]
  decide

/-- An illegal term and an invalid source are faults of other codes, so a command need be looked at with different
destinations and valid sources only. -/
theorem neverExceeds_of_valid {i : Instr} {s : State} (hs : s.err = false)
    (h : distinctDests i = true → (∀ r ∈ i.sources, ∃ v, s.regs[r] = some v) → NeverExceeds i s) :
    NeverExceeds i s := by
  cases hd : distinctDests i with
  | false => exact neverExceeds_of_faulted (exec_equalDests hs hd) (by decide)
  | true =>
    by_cases huninit : ∃ r ∈ i.sources, s.regs[r] = none
    · exact neverExceeds_of_faulted (exec_uninit hd hs huninit) (by decide)
    · exact h hd fun r hr => Option.ne_none_iff_exists'.mp fun hnone => huninit ⟨r, hr, hnone⟩

/-- `RD` of a value too long to be read out has no next state (U22). -/
theorem exec_readout_too_long {s : State} {rs : Reg} {v : Int} (hs : s.err = false) (hv : s.regs[rs] = some v)
    (hlong : 2 ^ 31 - 1 ≤ limbCount v.natAbs) : exec (.readout rs) s = .refused .readTooLong := by
  simp [exec, execRd, hs, (readTooLong_iff rs s).mpr ⟨v, hv, hlong⟩]

/-! Command by command, the settled statements say what it leaves with valid sources and arguments: nothing recorded. -/

section
variable {s : State} (hinv : s.Inv) (hs : s.err = false)
include hinv hs

/-- A command that completes leaves no code recorded. -/
theorem neverExceeds_of_completed {i : Instr} {regs : Vector (Option Int) 16} {rsp : List Word}
    (h : exec i s = .next { s with regs := regs, rsp := rsp }) : NeverExceeds i s :=
  neverExceeds_of_next h (errCode_ne_seven (s := s) hinv hs)

theorem readout_neverExceeds (rs1 : Reg) : NeverExceeds (.readout rs1) s := by
  refine neverExceeds_of_valid hs fun _ hsrc => ?_
  obtain ⟨v, hv⟩ := hsrc rs1 (by simp [Instr.sources])
  by_cases hlt : limbCount v.natAbs < 2 ^ 31 - 1
  · exact neverExceeds_of_completed hinv hs (exec_readout hs hv hlt)
  · intro t ht
    cases (exec_readout_too_long hs hv (not_lt.mp hlt)).symm.trans ht

/-- With unbounded registers every payload is within the capacity (R110). -/
theorem ldi_neverExceeds (hm : Config.maxLimbs = .unbounded) (rd : Reg) (p : Payload) : NeverExceeds (.ldi rd p) s :=
  neverExceeds_of_completed hinv hs (exec_ldi hs (by rw [hm]; rfl))

/-- With unbounded registers every product fits (R24). -/
theorem mul_neverExceeds (hm : Config.maxLimbs = .unbounded) (rd rs1 rs2 : Reg) :
    NeverExceeds (.mul rd rs1 rs2) s := by
  refine neverExceeds_of_valid hs fun _ hsrc => ?_
  obtain ⟨x, hx⟩ := hsrc rs1 (by simp [Instr.sources])
  obtain ⟨y, hy⟩ := hsrc rs2 (by simp [Instr.sources])
  obtain ⟨hprod, -⟩ := mulWritesTheProduct s rd rs1 rs2 x y hs hx hy
  exact neverExceeds_of_completed hinv hs (hprod (by rw [hm]; rfl))

theorem div_neverExceeds (rd rd2 rs1 rs2 : Reg) : NeverExceeds (.div rd rd2 rs1 rs2) s := by
  refine neverExceeds_of_valid hs fun hdests hsrc => ?_
  obtain ⟨n, hn⟩ := hsrc rs1 (by simp [Instr.sources])
  obtain ⟨d, hd⟩ := hsrc rs2 (by simp [Instr.sources])
  have hne : rd ≠ rd2 := of_decide_eq_true hdests
  by_cases hbad : d ≤ 0 ∨ n < 0
  · exact neverExceeds_of_faulted (exec_div_invalid hs hne hn hd hbad) (by decide)
  · have hd0 : 0 < d := by omega
    exact neverExceeds_of_completed hinv hs (divWritesQuotientAndRemainder s rd rd2 rs1 rs2 n d (n / d) (n % d) hs hinv.1
      hne hn hd (by omega) hd0 (Int.ediv_mul_add_emod n d).symm (Int.emod_nonneg n hd0.ne') (Int.emod_lt_of_pos n hd0))

theorem egcd_neverExceeds (rd rd2 rd3 rs1 rs2 : Reg) : NeverExceeds (.egcd rd rd2 rd3 rs1 rs2) s := by
  refine neverExceeds_of_valid hs fun hdests hsrc => ?_
  obtain ⟨a, ha⟩ := hsrc rs1 (by simp [Instr.sources])
  obtain ⟨b, hb⟩ := hsrc rs2 (by simp [Instr.sources])
  by_cases hbad : a < 0 ∨ b < 0
  · exact neverExceeds_of_faulted (exec_egcd_invalid hs hdests ha hb hbad) (by decide)
  · lift a to Nat using (by omega)
    lift b to Nat using (by omega)
    obtain ⟨⟨h12, h13⟩, h23⟩ : (rd ≠ rd2 ∧ rd ≠ rd3) ∧ rd2 ≠ rd3 := by simpa [distinctDests] using hdests
    exact neverExceeds_of_completed hinv hs
      (egcdWritesTheReferenceTriple s rd rd2 rd3 rs1 rs2 a b hs hinv.1 h12 h13 h23 ha hb)

theorem modinv_neverExceeds (rd rs1 rs2 : Reg) : NeverExceeds (.modinv rd rs1 rs2) s := by
  refine neverExceeds_of_valid hs fun _ hsrc => ?_
  obtain ⟨a, ha⟩ := hsrc rs1 (by simp [Instr.sources])
  obtain ⟨m, hm⟩ := hsrc rs2 (by simp [Instr.sources])
  by_cases hbad : a < 0 ∨ m < 1
  · exact neverExceeds_of_faulted (exec_modinv_invalid hs ha hm hbad) (by decide)
  · have ha0 : 0 ≤ a := by omega
    have hm1 : 1 ≤ m := by omega
    by_cases hgcd : Int.gcd a m = 1
    · obtain ⟨v, -, -, -, hv⟩ := modinvWritesTheInverse s rd rs1 rs2 a m hs hinv.1 ha hm ha0 hm1 hgcd
      exact neverExceeds_of_completed hinv hs hv
    · exact neverExceeds_of_faulted (noInverseFaults s rd rs1 rs2 a m hs ha hm ha0 hm1 hgcd) (by decide)

theorem modexp_neverExceeds (rd rs1 rs2 rs3 : Reg) : NeverExceeds (.modexp rd rs1 rs2 rs3) s := by
  refine neverExceeds_of_valid hs fun _ hsrc => ?_
  obtain ⟨b, hb⟩ := hsrc rs1 (by simp [Instr.sources])
  obtain ⟨e, he⟩ := hsrc rs2 (by simp [Instr.sources])
  obtain ⟨n, hn⟩ := hsrc rs3 (by simp [Instr.sources])
  by_cases hbad : n < 1 ∨ n % 2 = 0 ∨ e < 0 ∨ b < 0
  · exact neverExceeds_of_faulted (exec_modexp_invalid hs hb he hn hbad) (by decide)
  · lift b to Nat using (by omega)
    lift e to Nat using (by omega)
    lift n to Nat using (by omega)
    exact neverExceeds_of_completed hinv hs
      (modexpWritesThePower s rd rs1 rs2 rs3 b e n hs hinv.1 hb he hn (by omega))

theorem mrdec_neverExceeds (rd rd2 rs1 : Reg) : NeverExceeds (.mrdec rd rd2 rs1) s := by
  refine neverExceeds_of_valid hs fun hdests hsrc => ?_
  obtain ⟨n, hn⟩ := hsrc rs1 (by simp [Instr.sources])
  have hne : rd ≠ rd2 := of_decide_eq_true hdests
  by_cases hbad : n < 2
  · exact neverExceeds_of_faulted (exec_mrdec_invalid hs hne hn hbad) (by decide)
  · lift n to Nat using (by omega)
    obtain ⟨r, u, hodd, hdecomp⟩ := Nat.exists_eq_two_pow_mul_odd (n := n - 1) (by omega)
    exact neverExceeds_of_completed hinv hs (mrdecWritesTheDecomposition s rd rd2 rs1 n u r hs hinv.1 hne hn (by omega)
      (hdecomp.trans (mul_comm _ _)) (Nat.odd_iff.mp hodd))

theorem mrw_neverExceeds (rd rs1 rs2 rs3 rs4 : Reg) : NeverExceeds (.mrw rd rs1 rs2 rs3 rs4) s := by
  refine neverExceeds_of_valid hs fun _ hsrc => ?_
  obtain ⟨base, hb⟩ := hsrc rs1 (by simp [Instr.sources])
  obtain ⟨r, hr⟩ := hsrc rs2 (by simp [Instr.sources])
  obtain ⟨u, hu⟩ := hsrc rs3 (by simp [Instr.sources])
  obtain ⟨n, hn⟩ := hsrc rs4 (by simp [Instr.sources])
  by_cases hbad : n < 3 ∨ n % 2 = 0 ∨ base < 0 ∨ r < 0 ∨ u < 0
  · exact neverExceeds_of_faulted (exec_mrw_invalid hs hb hr hu hn hbad) (by decide)
  · lift base to Nat using (by omega)
    lift r to Nat using (by omega)
    lift u to Nat using (by omega)
    lift n to Nat using (by omega)
    obtain ⟨v, -, -, hv⟩ :=
      mrwWritesTheWitnessVerdict s rd rs1 rs2 rs3 rs4 base r u n hs hb hr hu hn (by omega) (by omega)
    exact neverExceeds_of_completed hinv hs hv

end

/-- Settles O28: every outcome of the other commands is settled and records another code or none; with `MAXLIMBS`
infinite so are those of `LDI` and `MUL`. -/
theorem onlyLdiAndMulExceedCapacity : Obligations.OnlyLdiAndMulExceedCapacity := by
  intro i s t hinv hs h
  by_cases hm : Config.maxLimbs ≠ .unbounded ∧ ((∃ rd p, i = .ldi rd p) ∨ ∃ rd rs1 rs2, i = .mul rd rs1 rs2)
  · exact .inr hm
  · refine .inl ((?_ : NeverExceeds i s) t h)
    cases i with
    | nop => exact neverExceeds_of_completed hinv hs (nopOnlyResponds s hs)
    | ack => exact neverExceeds_of_next (exec_ack s) (by simp)
    | rdsr sr => exact neverExceeds_of_completed hinv hs (exec_rdsr sr s)
    | ldi rd p => exact ldi_neverExceeds hinv hs (by simpa using hm) rd p
    | li rd imm => exact neverExceeds_of_completed hinv hs (liLoadsTheSignedImmediate s rd imm hs)
    | readout rs1 => exact readout_neverExceeds hinv hs rs1
    | mul rd rs1 rs2 => exact mul_neverExceeds hinv hs (by simpa using hm) rd rs1 rs2
    | div rd rd2 rs1 rs2 => exact div_neverExceeds hinv hs rd rd2 rs1 rs2
    | egcd rd rd2 rd3 rs1 rs2 => exact egcd_neverExceeds hinv hs rd rd2 rd3 rs1 rs2
    | modinv rd rs1 rs2 => exact modinv_neverExceeds hinv hs rd rs1 rs2
    | modexp rd rs1 rs2 rs3 => exact modexp_neverExceeds hinv hs rd rs1 rs2 rs3
    | mrdec rd rd2 rs1 => exact mrdec_neverExceeds hinv hs rd rd2 rs1
    | mrw rd rs1 rs2 rs3 rs4 => exact mrw_neverExceeds hinv hs rd rs1 rs2 rs3 rs4

end Sys2Proof.Machine
end

section
/-! PROOFS. Reset and the end of a run (70_reset_and_hazards.md), and the reference algorithms of the units: what is
left of Karatsuba and Euclid, the Euclid iteration, Montgomery exponentiation, the witness round of a prime. -/

namespace Sys2Proof.Machine

/-! ### Worked words, reset, and the statements that earlier lemmas settle -/

/-- Settles O5: the decoder evaluated on each word. -/
theorem workedWordsDecode : Obligations.WorkedWordsDecode := by
  unfold Obligations.WorkedWordsDecode
  decide

/-- Settles O14: the edge gives the reset state, and its components are those of R38. -/
theorem resetFromAnyState : Obligations.ResetFromAnyState := by
  intro l s hl
  have hregs (r : Reg) : State.reset.regs[r] = none := by simp [State.reset]
  exact ⟨portCycle_of_reset s hl, hregs, rfl, rfl, rfl, rfl, rfl, rfl, rfl, rfl, rfl, rfl, rfl⟩

/-- Settles O48. -/
theorem karatsubaIsTheExactProduct : Obligations.KaratsubaIsTheExactProduct :=
  fun _ x y hk => kMul_eq_mul hk x y

/-- Settles O53: the first component is the gcd. -/
theorem egcdCoefficientsAreBounded : Obligations.EgcdCoefficientsAreBounded := by
  intro a b _
  rw [egcdRef_g]
  exact egcdRef_natAbs_le a b

/-! ### Clean responses (R221, R258) -/

/-- No fault has the code of a command that completes (R221). -/
theorem faultCode_setWidth_ne_zero (e : CmdFault) : (faultCode e).setWidth 32 ≠ 0 := by
  cases e <;> decide

theorem exec_err_iff_status {i : Instr} {s t : State} (hs : s.err = false) (h : exec i s = .next t) :
    t.err = false ↔ ∃ pl, t.rsp = s.rsp ++ 0 :: pl := by
  obtain ⟨-, rfl⟩ | ⟨he, -⟩ | ⟨-, e, rfl⟩ | ⟨ws, pl, -, rfl⟩ := exec_next_cases h
  · exact iff_of_true rfl ⟨[], rfl⟩
  · simp [hs] at he
  · exact iff_of_false (by simp) (by simpa using faultCode_setWidth_ne_zero e)
  · exact iff_of_true (by simp [hs]) ⟨pl, by simp [okCode]⟩

/-- A command, legal or illegal, that answers the status word 0 has not set the latch: a fault answers its code. -/
theorem execCommand_err_of_status_zero {c : Command} {s t : State} (hs : s.err = false)
    (h : execCommand c s = .next t) (hzero : (t.rsp.drop s.rsp.length).head? = some 0) : t.err = false := by
  by_contra hset
  obtain ⟨e, rfl⟩ := execCommand_sets_latch hs h (by simpa using hset)
  exact faultCode_setWidth_ne_zero e (by simpa using hzero)

/-- A list of clean commands leaves the latch clear, command by command. -/
theorem execAll_err_of_allClean {cs : List Command} {s t : State} (hs : s.err = false) (h : execAll cs s = .next t)
    (hclean : allClean cs s = true) : t.err = false := by
  induction cs generalizing s with
  | nil => cases h; exact hs
  | cons c cs ih =>
    simp only [execAll, allClean, responsesOf] at h hclean
    cases hx : execCommand c s with
    | next u =>
      rw [hx] at h hclean
      simp only [List.all_cons, Bool.and_eq_true, decide_eq_true_eq] at hclean
      obtain ⟨hhead, hrest⟩ := hclean
      exact ih (execCommand_err_of_status_zero hs hx hhead) h hrest
    | fault f => rw [hx] at h; cases h
    | refused f => rw [hx] at h; cases h

/-- Settles O27. -/
theorem cleanExactlyWhenTheResponseIsOk : Obligations.CleanExactlyWhenTheResponseIsOk :=
  ⟨fun _ _ _ hs h => exec_err_iff_status hs h, fun _ _ _ hs h hclean => execAll_err_of_allClean hs h hclean⟩

/-! ### The Euclid iteration (R142) -/

/-- The invariant of the loop: what is still to come of it are the coefficients of the present remainders, and the pairs
`s` and `t` say how those remainders are made of the operands. -/
theorem egcdLoop_eq {fuel a b : Nat} (h : b ≤ fuel) (s t : Int × Int) :
    egcdLoop fuel (a, b) s t = ⟨(egcdRef a b).g, s.1 * (egcdRef a b).x + s.2 * (egcdRef a b).y,
      t.1 * (egcdRef a b).x + t.2 * (egcdRef a b).y⟩ := by
  induction fuel generalizing a b s t with
  | zero =>
    obtain rfl := Nat.le_zero.mp h
    simp [egcdLoop]
  | succ fuel ih =>
    rcases Nat.eq_zero_or_pos b with rfl | hb
    · simp [egcdLoop]
    · have hmod : a - a / b * b = a % b := by rw [Nat.mod_eq_sub_div_mul]
      have hlt : a % b < b := Nat.mod_lt a hb
      rw [egcdLoop, if_neg hb.ne', egcdRef_of_pos a hb]
      simp only [hmod, Bezout.unwind]
      rw [ih (by omega)]
      simp only [Bezout.mk.injEq, true_and]
      constructor <;> ring

/-- Settles O51: the loop begins with the coefficients of the operands themselves. -/
theorem egcdRecursionAndIterationAgree : Obligations.EgcdRecursionAndIterationAgree := by
  intro a b
  refine ⟨egcdRef_zero a, fun hb => egcdRef_of_pos a hb, ?_⟩
  rw [egcdIter, egcdLoop_eq le_rfl]
  simp

/-! ### Montgomery reduction (R152, R153) -/

/-- A remainder is the largest one exactly when the next number is a multiple. -/
theorem mod_eq_pred_iff {a n : Nat} (hpos : 0 < n) : a % n = n - 1 ↔ n ∣ a + 1 := by
  have hsplit : a + 1 = n * (a / n) + (a % n + 1) := by rw [← Nat.add_assoc, Nat.div_add_mod]
  rw [hsplit, Nat.dvd_add_right (Nat.dvd_mul_right n _)]
  have hlt : a % n < n := Nat.mod_lt a hpos
  constructor
  · intro h
    rw [h, Nat.sub_add_cancel hpos]
  · intro h
    have := Nat.le_of_dvd (Nat.succ_pos _) h
    omega

/-- `REDC` subtracts `n` at most once from `u`, where the radix times `u` is `t` made divisible by a multiple of `n`. -/
theorem redc_spec {k n nInv : Nat} (hinv : n * nInv % 2 ^ k = 2 ^ k - 1) (t : Nat) :
    ∃ m u, m < 2 ^ k ∧ u * 2 ^ k = t + m * n ∧ redc k n nInv t = if n ≤ u then u - n else u := by
  refine ⟨t % 2 ^ k * nInv % 2 ^ k, _, Nat.mod_lt _ (Nat.two_pow_pos k), Nat.div_mul_cancel ?_, rfl⟩
  have hpred : 2 ^ k ∣ n * nInv + 1 := (mod_eq_pred_iff (Nat.two_pow_pos k)).mp hinv
  have hmod : t + t % 2 ^ k * nInv % 2 ^ k * n ≡ t + t * nInv * n [MOD 2 ^ k] :=
    (((Nat.mod_modEq _ _).trans ((Nat.mod_modEq t _).mul_right nInv)).mul_right n).add_left t
  rw [hmod.dvd_iff dvd_rfl, show t + t * nInv * n = t * (n * nInv + 1) by ring]
  exact hpred.mul_left t

theorem redc_lt {k n nInv t : Nat} (hinv : n * nInv % 2 ^ k = 2 ^ k - 1) (ht : t < 2 ^ k * n) :
    redc k n nInv t < n := by
  obtain ⟨m, u, hm, hu, hredc⟩ := redc_spec hinv t
  have hlt : u < 2 * n := by
    refine Nat.lt_of_mul_lt_mul_right (a := 2 ^ k) ?_
    calc u * 2 ^ k = t + m * n := hu
      _ < 2 ^ k * n + 2 ^ k * n := Nat.add_lt_add_of_lt_of_le ht (Nat.mul_le_mul_right n hm.le)
      _ = 2 * n * 2 ^ k := by ring
  rw [hredc]
  split <;> omega

theorem redc_mul_radix {k n nInv : Nat} (hinv : n * nInv % 2 ^ k = 2 ^ k - 1) (t : Nat) :
    redc k n nInv t * 2 ^ k ≡ t [MOD n] := by
  obtain ⟨m, u, -, hu, hredc⟩ := redc_spec hinv t
  have hmod : redc k n nInv t ≡ u [MOD n] := by
    rw [hredc]
    split
    · next hle => exact ((Nat.modEq_sub_modulus_iff hle).mpr rfl).symm
    · rfl
  calc redc k n nInv t * 2 ^ k ≡ u * 2 ^ k [MOD n] := hmod.mul_right _
    _ = t + m * n := hu
    _ ≡ t [MOD n] := Nat.add_mul_modulus_modEq_iff.mpr rfl

/-- Settles O55. -/
theorem redcDividesByTheRadix : Obligations.RedcDividesByTheRadix :=
  fun _ _ _ t _ _ hinv ht => ⟨redc_lt hinv ht, redc_mul_radix hinv t⟩

/-! ### Montgomery exponentiation (R152, R153) -/

/-- `a` is the Montgomery form of the number `v` modulo `n`, for the radix `2^k`. -/
def IsMontForm (k n a v : Nat) : Prop := a < n ∧ a ≡ v * 2 ^ k [MOD n]

section
variable {k n nInv : Nat} (hodd : n % 2 = 1) (hn : n < 2 ^ k) (hinv : n * nInv % 2 ^ k = 2 ^ k - 1)

include hodd in
theorem coprime_two_pow_of_odd : Nat.Coprime n (2 ^ k) :=
  (Nat.coprime_two_right.mpr (Nat.odd_iff.mpr hodd)).pow_right k

include hn in
/-- A product of two numbers below the modulus is in the range of `REDC`. -/
theorem mul_lt_radix_mul {a c : Nat} (ha : a < n) (hc : c < n) : a * c < 2 ^ k * n :=
  (Nat.mul_lt_mul'' ha hc).trans_le (Nat.mul_le_mul_right n hn.le)

include hodd hinv in
/-- The radix has an inverse modulo an odd `n`, so what `REDC` gives is known from its product with the radix. -/
theorem redc_modEq {t v : Nat} (ht : t ≡ v * 2 ^ k [MOD n]) : redc k n nInv t ≡ v [MOD n] :=
  Nat.ModEq.cancel_right_of_coprime (coprime_two_pow_of_odd hodd) ((redc_mul_radix hinv t).trans ht)

include hodd hinv in
/-- Out of Montgomery form: `REDC` of the form itself. -/
theorem redc_of_isMontForm {a v : Nat} (ha : IsMontForm k n a v) : redc k n nInv a = v % n := by
  obtain ⟨ha, hav⟩ := ha
  have hrange : a < 2 ^ k * n := ha.trans_le (Nat.le_mul_of_pos_left n (Nat.two_pow_pos k))
  rw [← Nat.mod_eq_of_lt (redc_lt hinv hrange)]
  exact redc_modEq hodd hinv hav

include hodd hn hinv

theorem isMontForm_redc_mul {a c v w : Nat} (ha : IsMontForm k n a v) (hc : IsMontForm k n c w) :
    IsMontForm k n (redc k n nInv (a * c)) (v * w) := by
  obtain ⟨ha, hav⟩ := ha
  obtain ⟨hc, hcw⟩ := hc
  refine ⟨redc_lt hinv (mul_lt_radix_mul hn ha hc), redc_modEq hodd hinv ((hav.mul hcw).trans ?_)⟩
  rw [show v * 2 ^ k * (w * 2 ^ k) = v * w * 2 ^ k * 2 ^ k by ring]

/-- Into Montgomery form: a product with the square of the radix. -/
theorem isMontForm_enter (b : Nat) :
    IsMontForm k n (redc k n nInv (b % n * (2 ^ k * 2 ^ k % n))) b := by
  have hpos : 0 < n := by omega
  refine ⟨redc_lt hinv (mul_lt_radix_mul hn (Nat.mod_lt _ hpos) (Nat.mod_lt _ hpos)), redc_modEq hodd hinv ?_⟩
  rw [mul_assoc]
  exact (Nat.mod_modEq b n).mul (Nat.mod_modEq _ n)

/-- The invariant of the loop: with `i` bits left, the accumulator is the form of the power for the bits taken. -/
theorem montLoop_isMontForm {xb b : Nat} (e : Nat) (hxb : IsMontForm k n xb b) {i acc : Nat}
    (hacc : IsMontForm k n acc (b ^ (e / 2 ^ i))) : IsMontForm k n (montLoop k n nInv xb e i acc) (b ^ e) := by
  induction i generalizing acc with
  | zero => simpa [montLoop] using hacc
  | succ i ih =>
    rw [montLoop]
    apply ih
    have hhalf : e / 2 ^ (i + 1) = e / 2 ^ i / 2 := by rw [pow_succ, Nat.div_div_eq_div_mul]
    have hsq := isMontForm_redc_mul hodd hn hinv hacc hacc
    rw [← pow_add, hhalf] at hsq
    split
    · next hbit =>
      have he : e / 2 ^ i = e / 2 ^ i / 2 + e / 2 ^ i / 2 + 1 := by omega
      rw [he, pow_succ]
      exact isMontForm_redc_mul hodd hn hinv hsq hxb
    · next hbit =>
      have he : e / 2 ^ i = e / 2 ^ i / 2 + e / 2 ^ i / 2 := by omega
      rwa [he]

end

/-- `n'` is the number that `REDC` wants: its product with `n` is -1 modulo the radix. -/
theorem mul_montInv_mod {n radix : Nat} (hpos : 0 < radix) (h : Nat.gcd n radix = 1) :
    n * montInv n radix % radix = radix - 1 := by
  have hne : (radix : Int) ≠ 0 := by omega
  have hbezout := egcdRef_bezout n radix
  rw [egcdRef_g, h, Nat.cast_one] at hbezout
  have hdiv := Int.emod_add_mul_ediv (-(egcdRef n radix).x) radix
  rw [mod_eq_pred_iff hpos, ← Int.natCast_dvd_natCast, montInv]
  push_cast
  rw [Int.toNat_of_nonneg (Int.emod_nonneg _ hne)]
  exact ⟨(egcdRef n radix).y - n * (-(egcdRef n radix).x / radix), by linear_combination n * hdiv - hbezout⟩

/-- The radix is a whole number of limbs that hold `n` (R152). -/
theorem lt_two_pow_radixBits (n : Nat) : n < 2 ^ radixBits n :=
  (lt_two_pow_limbCount n).trans_le (Nat.pow_le_pow_right two_pos (Nat.mul_le_mul_left 32 (le_max_right _ _)))

/-- Settles O56: the loop begins before any bit of the exponent, with the form of 1. -/
theorem montgomeryExponentiationIsExact : Obligations.MontgomeryExponentiationIsExact := by
  intro b e n hodd
  have hn := lt_two_pow_radixBits n
  have hinv := mul_montInv_mod (Nat.two_pow_pos (radixBits n)) (coprime_two_pow_of_odd hodd)
  have hone : IsMontForm (radixBits n) n (2 ^ radixBits n % n) (b ^ (e / 2 ^ bitLength e)) := by
    rw [Nat.div_eq_of_lt (lt_two_pow_bitLength e), pow_zero]
    exact ⟨Nat.mod_lt _ (by omega), by rw [one_mul]; exact Nat.mod_modEq _ _⟩
  exact redc_of_isMontForm hodd hinv
    (montLoop_isMontForm hodd hn hinv e (isMontForm_enter hodd hn hinv b) hone)

/-! ### The witness round of a prime (R164) -/

/-- In a domain a number whose `2^r`-th power is 1 is 1 itself, or one of its repeated squares before that power is -1:
going down from the power, a square that is 1 has 1 or -1 as its root. -/
theorem eq_one_or_pow_two_pow_eq_neg_one {R : Type} [CommRing R] [NoZeroDivisors R] {y : R} {r : Nat}
    (h : y ^ 2 ^ r = 1) : y = 1 ∨ ∃ j < r, y ^ 2 ^ j = -1 := by
  induction r with
  | zero => exact .inl (by simpa using h)
  | succ r ih =>
    rw [pow_succ, pow_mul, sq_eq_one_iff] at h
    rcases h with hone | hneg
    · obtain hy | ⟨j, hj, hy⟩ := ih hone
      · exact .inl hy
      · exact .inr ⟨j, hj.trans (Nat.lt_succ_self r), hy⟩
    · exact .inr ⟨r, Nat.lt_succ_self r, hneg⟩

theorem mod_eq_pred_of_cast_eq_neg_one {a n : Nat} (hpos : 0 < n) (h : (a : ZMod n) = -1) : a % n = n - 1 := by
  rw [mod_eq_pred_iff hpos, ← ZMod.natCast_eq_zero_iff, Nat.cast_succ, h, neg_add_cancel]

/-- Settles O57: by Fermat the first power of the round has 1 as its `2^r`-th power, and modulo a prime -1 and 1 are the
only roots of 1, so the round meets `n - 1` or begins with 1. -/
theorem primePassesEveryWitnessRound : Obligations.PrimePassesEveryWitnessRound := by
  intro base r u n hprime h3 hdecomp _ hbase
  have : Fact n.Prime := ⟨hprime⟩
  have hne : (base : ZMod n) ≠ 0 := by rwa [Ne, ZMod.natCast_eq_zero_iff]
  have hfermat : ((base ^ u : Nat) : ZMod n) ^ 2 ^ r = 1 := by
    rw [Nat.cast_pow, ← pow_mul, ← hdecomp, ZMod.pow_card_sub_one_eq_one hne]
  rw [witnessRef_eq_one_iff]
  obtain hone | ⟨j, hj, hneg⟩ := eq_one_or_pow_two_pow_eq_neg_one hfermat
  · rw [← Nat.cast_one, ZMod.natCast_eq_natCast_iff', Nat.mod_eq_of_lt (by omega : 1 < n)] at hone
    exact .inl hone
  · rw [← Nat.cast_pow] at hneg
    have hlast := mod_eq_pred_of_cast_eq_neg_one hprime.pos hneg
    rcases Nat.eq_zero_or_pos j with rfl | hpos
    · exact .inr (.inl (by simpa using hlast))
    · exact .inr (.inr ⟨j, hpos, by omega, by rwa [← Nat.pow_mod]⟩)

end Sys2Proof.Machine
end
